-- ==== Sys2Proof/Word.lean ====
section
/-!
DEFINITION. The word types of the core and the two truncations of 00_scope.md R15.
Registers, addresses in registers and opcode words are bit vectors; sums are taken on natural numbers and narrowed here.
-/

namespace Sys2Proof

/-- A byte: a general register, a timer, a byte of memory (10_state.md R100, R125; 20_memory.md R200). -/
abbrev Byte := BitVec 8

/-- A 16-bit word: I, pc, a stack slot, an opcode (10_state.md R110, R115, R120; 30_encoding.md R300). -/
abbrev Word := BitVec 16

/-- `trunc8(v) = v mod 256` (00_scope.md R15). -/
def trunc8 (n : Nat) : Byte := BitVec.ofNat 8 n

/-- `trunc16(v) = v mod 65536` (00_scope.md R15). -/
def trunc16 (n : Nat) : Word := BitVec.ofNat 16 n

end Sys2Proof
end

