-- ==== Sys2Proof/Syntax.lean ====
section
/-!
DEFINITION. The instructions: one constructor per row of spec/opcode_table.json, 34 in all (30_encoding.md R310).
The operand types carry the field widths of R301: X and Y are register numbers, NN a byte, NNN 12 bits, N a row count.
-/

namespace Sys2Proof

/-- A general register number, `V0`..`VF` (10_state.md R100). -/
abbrev Reg := Fin 16

/-- The register VF (10_state.md R101). -/
abbrev Reg.vf : Reg := 15

/-- The register V0, the implicit operand of BNNN (40_control_flow.md R408). -/
abbrev Reg.v0 : Reg := 0

/-- The 12-bit address immediate NNN (30_encoding.md R302). -/
abbrev Imm12 := BitVec 12

/-- The instruction set (30_encoding.md R310, R311). -/
inductive Instr where
  /-- 00E0 clear the display (43_display.md R700). -/
  | cls
  /-- 00EE return from subroutine (40_control_flow.md R401). -/
  | ret
  /-- 1NNN jump; a self-jump halts (R402). -/
  | jp (nnn : Imm12)
  /-- 2NNN call subroutine (R403). -/
  | call (nnn : Imm12)
  /-- 3XNN skip if V[X] = NN (R404). -/
  | seImm (x : Reg) (nn : Byte)
  /-- 4XNN skip if V[X] ≠ NN (R405). -/
  | sneImm (x : Reg) (nn : Byte)
  /-- 5XY0 skip if V[X] = V[Y] (R406). -/
  | seReg (x y : Reg)
  /-- 6XNN load immediate (41_alu.md R500). -/
  | ldImm (x : Reg) (nn : Byte)
  /-- 7XNN add immediate without carry (R501). -/
  | addImm (x : Reg) (nn : Byte)
  /-- 8XY0 copy register (R502). -/
  | ldReg (x y : Reg)
  /-- 8XY1 bitwise OR (R503). -/
  | or (x y : Reg)
  /-- 8XY2 bitwise AND (R504). -/
  | and (x y : Reg)
  /-- 8XY3 bitwise XOR (R505). -/
  | xor (x y : Reg)
  /-- 8XY4 add with carry (R506). -/
  | addReg (x y : Reg)
  /-- 8XY5 subtract V[X] − V[Y] (R507). -/
  | sub (x y : Reg)
  /-- 8XY6 shift V[X] right by one; Y is ignored (R508). -/
  | shr (x y : Reg)
  /-- 8XY7 reverse subtract V[Y] − V[X] (R509). -/
  | subn (x y : Reg)
  /-- 8XYE shift V[X] left by one; Y is ignored (R510). -/
  | shl (x y : Reg)
  /-- 9XY0 skip if V[X] ≠ V[Y] (40_control_flow.md R407). -/
  | sneReg (x y : Reg)
  /-- ANNN load index (42_index_memory.md R600). -/
  | ldI (nnn : Imm12)
  /-- BNNN jump to NNN + V0 (40_control_flow.md R408). -/
  | jpV0 (nnn : Imm12)
  /-- CXNN random byte AND NN (41_alu.md R520). -/
  | rnd (x : Reg) (nn : Byte)
  /-- DXYN draw a sprite of N rows at (V[X], V[Y]) (43_display.md R701). -/
  | drw (x y : Reg) (n : Fin 16)
  /-- EX9E skip if key V[X] is pressed (44_keys_timers.md R800). -/
  | skp (x : Reg)
  /-- EXA1 skip if key V[X] is not pressed (R801). -/
  | sknp (x : Reg)
  /-- FX07 read the delay timer (R802). -/
  | ldVxDt (x : Reg)
  /-- FX0A wait for a key press (R803). -/
  | ldVxK (x : Reg)
  /-- FX15 set the delay timer (R804). -/
  | ldDtVx (x : Reg)
  /-- FX18 set the sound timer (R805). -/
  | ldStVx (x : Reg)
  /-- FX1E add V[X] to I (42_index_memory.md R601). -/
  | addIVx (x : Reg)
  /-- FX29 point I at the glyph of V[X] (R602). -/
  | ldFVx (x : Reg)
  /-- FX33 store the BCD digits of V[X] (R603). -/
  | ldBVx (x : Reg)
  /-- FX55 store V0..VX at I and advance I (R604). -/
  | ldMemVx (x : Reg)
  /-- FX65 load V0..VX from I (R605). -/
  | ldVxMem (x : Reg)
deriving DecidableEq, Repr

end Sys2Proof
end

