-- ==== Sys2Proof/WellFormed.lean ====
section
/-!
DEFINITION. Well-formedness of operands, in the assembly order of 30_encoding.md R325.
An operand as a person writes it is a number; `Operand.wf` is the check on it ("`Vx` and `Vy` are `V0`..`VF`, `nn` is a
byte, `nnn` a 12-bit address and `n` a nibble"). The operand types of Instr already carry these bounds, so every
Instr passes (`Instr.wf_all` in Laws/Encoding.lean); a raw operand out of range does not, and builds no Instr.
-/

namespace Sys2Proof

/-- An operand as written in assembly: the number is not yet known to fit its field (30_encoding.md R325). -/
inductive Operand where
  /-- A register `V<n>`. -/
  | reg (n : Nat)
  /-- A byte `nn`. -/
  | byte (n : Nat)
  /-- A 12-bit address `nnn`. -/
  | addr (n : Nat)
  /-- A nibble `n`, the row count of DXYN. -/
  | nibble (n : Nat)
deriving DecidableEq, Repr

/-- The operand fits the field that encodes it (30_encoding.md R301, R325). -/
def Operand.wf : Operand → Bool
  | .reg n => n < 16
  | .byte n => n < 256
  | .addr n => n < 4096
  | .nibble n => n < 16

/-- The operands of an instruction in the order of its assembly form (30_encoding.md R325).
The Y of 8XY6 and 8XYE is an operand of the word although its register is not read (90_conflicts.md C12). -/
def Instr.operands : Instr → List Operand
  | .cls | .ret => []
  | .jp nnn | .call nnn | .ldI nnn | .jpV0 nnn => [.addr nnn.toNat]
  | .seImm x nn | .sneImm x nn | .ldImm x nn | .addImm x nn | .rnd x nn => [.reg x.val, .byte nn.toNat]
  | .seReg x y | .sneReg x y | .ldReg x y | .or x y | .and x y | .xor x y | .addReg x y | .sub x y
  | .shr x y | .subn x y | .shl x y => [.reg x.val, .reg y.val]
  | .drw x y n => [.reg x.val, .reg y.val, .nibble n.val]
  | .skp x | .sknp x | .ldVxDt x | .ldVxK x | .ldDtVx x | .ldStVx x | .addIVx x | .ldFVx x | .ldBVx x
  | .ldMemVx x | .ldVxMem x => [.reg x.val]

/-- Every operand of the instruction fits its field. -/
def Instr.wf (i : Instr) : Bool := i.operands.all Operand.wf

/-- A register operand, where the written number names one of V0..VF. -/
def Operand.toReg? : Operand → Option Reg
  | .reg n => if h : n < 16 then some ⟨n, h⟩ else none
  | .byte _ | .addr _ | .nibble _ => none

/-- A byte operand, where the written number is one. -/
def Operand.toByte? : Operand → Option Byte
  | .byte n => if n < 256 then some (BitVec.ofNat 8 n) else none
  | .reg _ | .addr _ | .nibble _ => none

/-- A 12-bit address operand, where the written number is one. -/
def Operand.toImm12? : Operand → Option Imm12
  | .addr n => if n < 4096 then some (BitVec.ofNat 12 n) else none
  | .reg _ | .byte _ | .nibble _ => none

/-- A nibble operand, where the written number is one. -/
def Operand.toNibble? : Operand → Option (Fin 16)
  | .nibble n => if h : n < 16 then some ⟨n, h⟩ else none
  | .reg _ | .byte _ | .addr _ => none

end Sys2Proof
end

