-- ==== Sys2Proof/Decode.lean ====
section
/-!
DEFINITION. Decoding and encoding (30_encoding.md R300–R321). A word is four nibbles c x y n (R301); NN is y ++ n and
NNN is x ++ y ++ n. `decode` is the total function of R311; `encode` is written from the bit patterns of R303 and
opcode_table.json.
-/

namespace Sys2Proof

/-- The high nibble `op[15:12]`, the class (30_encoding.md R301). -/
def opClass (op : Word) : BitVec 4 := op.extractLsb' 12 4

/-- The nibble `op[11:8]`, the field X. -/
def opX (op : Word) : BitVec 4 := op.extractLsb' 8 4

/-- The nibble `op[7:4]`, the field Y. -/
def opY (op : Word) : BitVec 4 := op.extractLsb' 4 4

/-- The nibble `op[3:0]`, the field N. -/
def opN (op : Word) : BitVec 4 := op.extractLsb' 0 4

/-- The word of four nibbles, the class in the high bits (00_scope.md R14 `++`). -/
def ofNibbles (c x y n : BitVec 4) : Word := c ++ x ++ y ++ n

/-- The high nibble of a byte. -/
def hiNibble (b : Byte) : BitVec 4 := b.extractLsb' 4 4

/-- The low nibble of a byte. -/
def loNibble (b : Byte) : BitVec 4 := b.extractLsb' 0 4

/-- NN of two nibbles. -/
def byteOf (y n : BitVec 4) : Byte := y ++ n

/-- NNN of three nibbles. -/
def imm12Of (x y n : BitVec 4) : Imm12 := x ++ y ++ n

/-- The register number in a nibble. -/
def regOf (b : BitVec 4) : Reg := b.toFin

/-- The nibble that holds a register number or a row count. -/
def nibbleOf (x : Fin 16) : BitVec 4 := BitVec.ofFin x

/-- Why bytes are no instruction. -/
inductive Reject where
  /-- A word that matches no row of the opcode map (30_encoding.md R320). -/
  | unknownOpcode (op : Word)
  /-- Fewer than the two bytes of an instruction (30_encoding.md R300). -/
  | truncated
deriving DecidableEq, Repr

/-- Class 8: the low nibble selects the operation (30_encoding.md R311). -/
def decodeClass8 (op : Word) (x y : Reg) : Except Reject Instr :=
  match (opN op).toNat with
  | 0x0 => .ok (.ldReg x y)
  | 0x1 => .ok (.or x y)
  | 0x2 => .ok (.and x y)
  | 0x3 => .ok (.xor x y)
  | 0x4 => .ok (.addReg x y)
  | 0x5 => .ok (.sub x y)
  | 0x6 => .ok (.shr x y)
  | 0x7 => .ok (.subn x y)
  | 0xE => .ok (.shl x y)
  | _ => .error (.unknownOpcode op)

/-- Class E: the low byte selects the operation (30_encoding.md R311). -/
def decodeClassE (op : Word) (x : Reg) (nn : Byte) : Except Reject Instr :=
  match nn.toNat with
  | 0x9E => .ok (.skp x)
  | 0xA1 => .ok (.sknp x)
  | _ => .error (.unknownOpcode op)

/-- Class F: the low byte selects the operation (30_encoding.md R311). -/
def decodeClassF (op : Word) (x : Reg) (nn : Byte) : Except Reject Instr :=
  match nn.toNat with
  | 0x07 => .ok (.ldVxDt x)
  | 0x0A => .ok (.ldVxK x)
  | 0x15 => .ok (.ldDtVx x)
  | 0x18 => .ok (.ldStVx x)
  | 0x1E => .ok (.addIVx x)
  | 0x29 => .ok (.ldFVx x)
  | 0x33 => .ok (.ldBVx x)
  | 0x55 => .ok (.ldMemVx x)
  | 0x65 => .ok (.ldVxMem x)
  | _ => .error (.unknownOpcode op)

/-- The decoder of 30_encoding.md R311: an instruction, or the word rejected by name (`Unknown`, R320). -/
def decode (op : Word) : Except Reject Instr :=
  let x := regOf (opX op)
  let y := regOf (opY op)
  let n := opN op
  let nn := byteOf (opY op) (opN op)
  let nnn := imm12Of (opX op) (opY op) (opN op)
  match (opClass op).toNat with
  | 0x0 => if op = 0x00E0#16 then .ok .cls else if op = 0x00EE#16 then .ok .ret else .error (.unknownOpcode op)
  | 0x1 => .ok (.jp nnn)
  | 0x2 => .ok (.call nnn)
  | 0x3 => .ok (.seImm x nn)
  | 0x4 => .ok (.sneImm x nn)
  | 0x5 => if n = 0#4 then .ok (.seReg x y) else .error (.unknownOpcode op)
  | 0x6 => .ok (.ldImm x nn)
  | 0x7 => .ok (.addImm x nn)
  | 0x8 => decodeClass8 op x y
  | 0x9 => if n = 0#4 then .ok (.sneReg x y) else .error (.unknownOpcode op)
  | 0xA => .ok (.ldI nnn)
  | 0xB => .ok (.jpV0 nnn)
  | 0xC => .ok (.rnd x nn)
  | 0xD => .ok (.drw x y n.toFin)
  | 0xE => decodeClassE op x nn
  | 0xF => decodeClassF op x nn
  | _ => .error (.unknownOpcode op)

/-- `(hi << 8) | lo`: an opcode of two bytes, the byte at the lower address first (20_memory.md R215). -/
def wordOfBytes (hi lo : Byte) : Word := hi ++ lo

/-- The two bytes of an opcode as they lie in memory, the high byte at the lower address (20_memory.md R215). -/
def bytesOfWord (op : Word) : List Byte := [op.extractLsb' 8 8, op.extractLsb' 0 8]

/-- Decode the first instruction of a byte sequence and give back the rest; total on any bytes. -/
def decodeBytes : List Byte → Except Reject (Instr × List Byte)
  | hi :: lo :: rest =>
    match decode (wordOfBytes hi lo) with
    | .ok i => .ok (i, rest)
    | .error e => .error e
  | _ => .error .truncated

/-- Format `nnn` (30_encoding.md R303): class(4) NNN(12). -/
def encNnn (c : BitVec 4) (nnn : Imm12) : Word := c ++ nnn

/-- Format `xnn`: class(4) X(4) NN(8). -/
def encXnn (c : BitVec 4) (x : Reg) (nn : Byte) : Word := c ++ nibbleOf x ++ nn

/-- Format `xy`: class(4) X(4) Y(4) func(4). -/
def encXy (c : BitVec 4) (x y : Reg) (func : BitVec 4) : Word := c ++ nibbleOf x ++ nibbleOf y ++ func

/-- Format `xyn`: class(4) X(4) Y(4) N(4). -/
def encXyn (c : BitVec 4) (x y : Reg) (n : Fin 16) : Word := c ++ nibbleOf x ++ nibbleOf y ++ nibbleOf n

/-- Format `x`: class(4) X(4) func(8). -/
def encX (c : BitVec 4) (x : Reg) (func : Byte) : Word := c ++ nibbleOf x ++ func

/-- The word of an instruction, row by row of opcode_table.json (30_encoding.md R303, R310). -/
def encode : Instr → Word
  | .cls => 0x00E0
  | .ret => 0x00EE
  | .jp nnn => encNnn 0x1 nnn
  | .call nnn => encNnn 0x2 nnn
  | .seImm x nn => encXnn 0x3 x nn
  | .sneImm x nn => encXnn 0x4 x nn
  | .seReg x y => encXy 0x5 x y 0x0
  | .ldImm x nn => encXnn 0x6 x nn
  | .addImm x nn => encXnn 0x7 x nn
  | .ldReg x y => encXy 0x8 x y 0x0
  | .or x y => encXy 0x8 x y 0x1
  | .and x y => encXy 0x8 x y 0x2
  | .xor x y => encXy 0x8 x y 0x3
  | .addReg x y => encXy 0x8 x y 0x4
  | .sub x y => encXy 0x8 x y 0x5
  | .shr x y => encXy 0x8 x y 0x6
  | .subn x y => encXy 0x8 x y 0x7
  | .shl x y => encXy 0x8 x y 0xE
  | .sneReg x y => encXy 0x9 x y 0x0
  | .ldI nnn => encNnn 0xA nnn
  | .jpV0 nnn => encNnn 0xB nnn
  | .rnd x nn => encXnn 0xC x nn
  | .drw x y n => encXyn 0xD x y n
  | .skp x => encX 0xE x 0x9E
  | .sknp x => encX 0xE x 0xA1
  | .ldVxDt x => encX 0xF x 0x07
  | .ldVxK x => encX 0xF x 0x0A
  | .ldDtVx x => encX 0xF x 0x15
  | .ldStVx x => encX 0xF x 0x18
  | .addIVx x => encX 0xF x 0x1E
  | .ldFVx x => encX 0xF x 0x29
  | .ldBVx x => encX 0xF x 0x33
  | .ldMemVx x => encX 0xF x 0x55
  | .ldVxMem x => encX 0xF x 0x65

/-- The mnemonic of an instruction in spec/opcode_table.json (30_encoding.md R325). -/
def Instr.mnemonic : Instr → String
  | .cls => "CLS"
  | .ret => "RET"
  | .jp _ => "JP"
  | .call _ => "CALL"
  | .seImm _ _ => "SE_imm"
  | .sneImm _ _ => "SNE_imm"
  | .seReg _ _ => "SE_reg"
  | .ldImm _ _ => "LD_imm"
  | .addImm _ _ => "ADD_imm"
  | .ldReg _ _ => "LD_reg"
  | .or _ _ => "OR"
  | .and _ _ => "AND"
  | .xor _ _ => "XOR"
  | .addReg _ _ => "ADD_reg"
  | .sub _ _ => "SUB"
  | .shr _ _ => "SHR"
  | .subn _ _ => "SUBN"
  | .shl _ _ => "SHL"
  | .sneReg _ _ => "SNE_reg"
  | .ldI _ => "LD_I"
  | .jpV0 _ => "JP_V0"
  | .rnd _ _ => "RND"
  | .drw _ _ _ => "DRW"
  | .skp _ => "SKP"
  | .sknp _ => "SKNP"
  | .ldVxDt _ => "LD_Vx_DT"
  | .ldVxK _ => "LD_Vx_K"
  | .ldDtVx _ => "LD_DT_Vx"
  | .ldStVx _ => "LD_ST_Vx"
  | .addIVx _ => "ADD_I_Vx"
  | .ldFVx _ => "LD_F_Vx"
  | .ldBVx _ => "LD_B_Vx"
  | .ldMemVx _ => "LD_mem_Vx"
  | .ldVxMem _ => "LD_Vx_mem"

/-- The instruction that a mnemonic and its written operands name, in the operand order of 30_encoding.md R325;
`none` for an unknown mnemonic, a wrong operand count or kind, or an operand that does not fit its field. -/
def assemble (mnemonic : String) (ops : List Operand) : Option Instr :=
  match mnemonic, ops with
  | "CLS", [] => some .cls
  | "RET", [] => some .ret
  | "JP", [a] => a.toImm12?.map .jp
  | "CALL", [a] => a.toImm12?.map .call
  | "SE_imm", [a, b] => a.toReg?.bind fun x => b.toByte?.map (.seImm x)
  | "SNE_imm", [a, b] => a.toReg?.bind fun x => b.toByte?.map (.sneImm x)
  | "SE_reg", [a, b] => a.toReg?.bind fun x => b.toReg?.map (.seReg x)
  | "LD_imm", [a, b] => a.toReg?.bind fun x => b.toByte?.map (.ldImm x)
  | "ADD_imm", [a, b] => a.toReg?.bind fun x => b.toByte?.map (.addImm x)
  | "LD_reg", [a, b] => a.toReg?.bind fun x => b.toReg?.map (.ldReg x)
  | "OR", [a, b] => a.toReg?.bind fun x => b.toReg?.map (.or x)
  | "AND", [a, b] => a.toReg?.bind fun x => b.toReg?.map (.and x)
  | "XOR", [a, b] => a.toReg?.bind fun x => b.toReg?.map (.xor x)
  | "ADD_reg", [a, b] => a.toReg?.bind fun x => b.toReg?.map (.addReg x)
  | "SUB", [a, b] => a.toReg?.bind fun x => b.toReg?.map (.sub x)
  | "SHR", [a, b] => a.toReg?.bind fun x => b.toReg?.map (.shr x)
  | "SUBN", [a, b] => a.toReg?.bind fun x => b.toReg?.map (.subn x)
  | "SHL", [a, b] => a.toReg?.bind fun x => b.toReg?.map (.shl x)
  | "SNE_reg", [a, b] => a.toReg?.bind fun x => b.toReg?.map (.sneReg x)
  | "LD_I", [a] => a.toImm12?.map .ldI
  | "JP_V0", [a] => a.toImm12?.map .jpV0
  | "RND", [a, b] => a.toReg?.bind fun x => b.toByte?.map (.rnd x)
  | "DRW", [a, b, c] => a.toReg?.bind fun x => b.toReg?.bind fun y => c.toNibble?.map (.drw x y)
  | "SKP", [a] => a.toReg?.map .skp
  | "SKNP", [a] => a.toReg?.map .sknp
  | "LD_Vx_DT", [a] => a.toReg?.map .ldVxDt
  | "LD_Vx_K", [a] => a.toReg?.map .ldVxK
  | "LD_DT_Vx", [a] => a.toReg?.map .ldDtVx
  | "LD_ST_Vx", [a] => a.toReg?.map .ldStVx
  | "ADD_I_Vx", [a] => a.toReg?.map .addIVx
  | "LD_F_Vx", [a] => a.toReg?.map .ldFVx
  | "LD_B_Vx", [a] => a.toReg?.map .ldBVx
  | "LD_mem_Vx", [a] => a.toReg?.map .ldMemVx
  | "LD_Vx_mem", [a] => a.toReg?.map .ldVxMem
  | _, _ => none

/-- The opcode word of the low `nbits` bits of `w` (opcode_table.json numbers a row's bits from its least significant). -/
def tableWord (nbits w : Nat) : Word := BitVec.ofNat 16 (w % 2 ^ nbits)

/-- The instruction the decoder reads from a table word laid out in memory order. -/
def decodeTableWord (nbits w : Nat) : Option Instr :=
  match decodeBytes (bytesOfWord (tableWord nbits w)) with
  | .ok (i, _) => some i
  | .error _ => none

end Sys2Proof
end

