-- ==== Sys2Proof/Config.lean ====
section
/-!
DEFINITION. The open parameters of 00_scope.md R10 and the model's one free value.
The three fixed parameters form a plain record which State carries (assumption log entry 2), so that a statement over
all states is a statement over all parameters. The draw of CXNN is an opaque constant (entry 4).
-/

namespace Sys2Proof

/-- `VF_ORDER` (00_scope.md R10, 10_state.md R103): which write wins when an instruction writes V[X] and VF and X = 0xF. -/
inductive VfOrder where
  /-- The result is written first and then the flag: VF ends with the flag. The spec's default (D2). -/
  | flagLast
  /-- The flag is written first and then the result: VF ends with the result. -/
  | resultLast
deriving DecidableEq, Repr

/-- The parameters of one machine; no operation changes them (00_scope.md R10). -/
structure Config where
  /-- `STEP_DECREMENTS_TIMERS`: whether a committing step also decrements both timers (30_encoding.md R336). -/
  stepDecrementsTimers : Bool
  /-- `VF_ORDER` (10_state.md R103). -/
  vfOrder : VfOrder
  /-- `FONT`: 80 bytes, glyph k (k = 0x0..0xF) of 5 bytes at address 5·k (10_state.md R140). -/
  font : Vector (Vector Byte 5) 16
deriving DecidableEq, Repr

/-- The default of `FONT`: the table of 10_state.md R140.
PRESUMED, unsafe: the spec marks these bytes as general knowledge (G1); assumption log entry 3. -/
def Config.defaultFont : Vector (Vector Byte 5) 16 :=
  #v[ #v[0xF0, 0x90, 0x90, 0x90, 0xF0], #v[0x20, 0x60, 0x20, 0x20, 0x70],
      #v[0xF0, 0x10, 0xF0, 0x80, 0xF0], #v[0xF0, 0x10, 0xF0, 0x10, 0xF0],
      #v[0x90, 0x90, 0xF0, 0x10, 0x10], #v[0xF0, 0x80, 0xF0, 0x10, 0xF0],
      #v[0xF0, 0x80, 0xF0, 0x90, 0xF0], #v[0xF0, 0x10, 0x20, 0x40, 0x40],
      #v[0xF0, 0x90, 0xF0, 0x90, 0xF0], #v[0xF0, 0x90, 0xF0, 0x10, 0xF0],
      #v[0xF0, 0x90, 0xF0, 0x90, 0x90], #v[0xE0, 0x90, 0xE0, 0x90, 0xE0],
      #v[0xF0, 0x80, 0x80, 0x80, 0xF0], #v[0xE0, 0x90, 0x90, 0x90, 0xE0],
      #v[0xF0, 0x80, 0xF0, 0x80, 0xF0], #v[0xF0, 0x80, 0xF0, 0x80, 0x80] ]

/-- The spec's defaults (00_scope.md R10).
DESIGN CHOICE, unsafe where a claim rests on a default: assumption log entry 2. -/
def Config.default : Config where
  stepDecrementsTimers := false
  vfOrder := .flagLast
  font := Config.defaultFont

/-- `rand()` (00_scope.md R10, 41_alu.md R520): the byte of the n-th CXNN draw of the machine's life.
DESIGN CHOICE, safe: no body, so nothing can be proved of any draw and no law relates two draws (D12, U7);
assumption log entry 4. -/
opaque Config.randByte : Nat → Byte

end Sys2Proof
end

