-- ==== Sys2Proof/Machine/State.lean ====
section
/-!
DEFINITION. The architectural state of 10_state.md, memory included, as plain data, and its reset value (R150).
-/

namespace Sys2Proof.Machine

/-- Memory as the bytes that differ from their reset contents, in one canonical form (`Memory.wf` in Ops.lean). -/
abbrev Memory := List Host.Cell

/-- The display: 32 rows of 64 pixels, 2048 one-bit entries; `disp[64 * y + x]` is bit x of row y (10_state.md R135,
43_display.md R702). DESIGN CHOICE, safe: assumption log entry 10. -/
abbrev Display := Vector (BitVec 64) 32

/-- Every pixel 0. -/
def Display.blank : Display := Vector.replicate 32 0

/-- The run status (10_state.md R137). -/
inductive Status where
  /-- The block runs instructions; the document's `running` flag is true. -/
  | running
  /-- Stopped by a self-jump (40_control_flow.md R402). -/
  | halted
  /-- Stopped by a fault (60_exceptions.md R903). -/
  | faulted
deriving DecidableEq, Repr

/-- The fault kinds (60_exceptions.md R900). -/
inductive FaultKind where
  /-- No fault recorded. -/
  | noFault
  /-- The fetched word decodes to `Unknown`; raised by step decode. -/
  | unknownOpcode
  /-- 2NNN with sp = 16. -/
  | stackOverflow
  /-- 00EE with sp = 0. -/
  | stackUnderflow
  /-- A write address I + k above 0xFFF; raised by FX33 and FX55. -/
  | memWriteOutOfRange
  /-- A read address I + k above 0xFFF; raised by DXYN and FX65. -/
  | memReadOutOfRange
  /-- pc + 1 above 0xFFF at fetch. -/
  | fetchOutOfRange
  /-- V[X] above 0xF as a key index; raised by EX9E and EXA1. -/
  | keyIndexOutOfRange
deriving DecidableEq, Repr

/-- The fault record (10_state.md R138). -/
structure FaultRecord where
  /-- The fault kind. -/
  kind : FaultKind
  /-- The pc of the instruction that faulted. -/
  pc : Word
  /-- The fetched opcode, or 0x0000 when fetch itself faulted. -/
  opcode : Word
  /-- The address or value the fault names (the table of 60_exceptions.md R900). -/
  info : Word
deriving DecidableEq, Repr

/-- The record with no fault: kind 0, pc, opcode and info 0x0000 (10_state.md R150). -/
def FaultRecord.empty : FaultRecord := ⟨.noFault, 0, 0, 0⟩

/-- The whole state of one block, after its first `initialize`. -/
structure State where
  /-- The machine's parameters (00_scope.md R10); no operation changes them. The model's own field. -/
  cfg : Config
  /-- `V[0]`..`V[15]` (10_state.md R100). -/
  v : Vector Byte 16
  /-- The index register I (R110). -/
  idx : Word
  /-- The program counter (R115). -/
  pc : Word
  /-- `stack[0]`..`stack[15]` (R120). -/
  stack : Vector Word 16
  /-- The stack pointer, the number of occupied slots, 0–16 (R120). -/
  sp : Fin 17
  /-- The delay timer DT (R125). -/
  dt : Byte
  /-- The sound timer ST (R125). -/
  st : Byte
  /-- `key[0]`..`key[15]`; true is the spec's 1, pressed (R130). -/
  keys : Vector Bool 16
  /-- The display (R135). -/
  disp : Display
  /-- The draw flag (R136). -/
  drawFlag : Bool
  /-- The run status (R137). -/
  status : Status
  /-- The fault record (R138). -/
  fault : FaultRecord
  /-- The 4096 bytes of memory (20_memory.md R200). -/
  mem : Memory
  /-- How many CXNN draws were taken: the argument of the free value `Config.randByte` (41_alu.md R520).
  The model's own field; assumption log entry 4. -/
  draws : Nat
deriving DecidableEq, Repr

/-- Why the machine would stop with no next state: nothing in this hardware does. Every fault of the spec has an
entry that 60_exceptions.md R903 describes, and the model takes that entry as a next state with status Faulted, so the
type has no constructor (nobody raises one). DESIGN CHOICE, safe: assumption log entry 1. -/
inductive Fault where
deriving DecidableEq, Repr

/-- Why an operation has no meaning. -/
inductive Refusal where
  /-- An instruction whose arm of exec has no meaning yet: raised by exec alone. Safe. No arm raises it now. -/
  | notModelled (mnemonic : String)
  /-- An operation other than `initialize` on a block that was never initialised: raised by `applyOp`
  (70_reset_and_hazards.md R1020, D28). Safe: the state before `initialize` is unspecified. -/
  | notInitialised
deriving DecidableEq, Repr

/-- The state `initialize` leaves, for the machine's parameters and draw counter (10_state.md R150,
70_reset_and_hazards.md R1001). Memory lists nothing: an unlisted address reads as its reset contents. -/
def State.initial (cfg : Config) (draws : Nat) : State where
  cfg := cfg
  v := Vector.replicate 16 0
  idx := 0x0000
  pc := 0x0200
  stack := Vector.replicate 16 0
  sp := 0
  dt := 0
  st := 0
  keys := Vector.replicate 16 false
  disp := .blank
  drawFlag := false
  status := .running
  fault := .empty
  mem := []
  draws := draws

/-- The machine right after reset, with the spec's default parameters (00_scope.md R10) and no draw taken. -/
def State.reset : State := State.initial Config.default 0

end Sys2Proof.Machine
end

