-- ==== Sys2Proof/Machine/Ops.lean ====
section
/-!
DEFINITION. The named operations over memory, registers, pc, stack and timers, and the one way a fault is taken.
-/

namespace Sys2Proof.Machine

/-- What a meaning answers. -/
abbrev Result := Host.Outcome State Fault Refusal

/-! ## Memory -/

/-- The number of addresses, 0x000–0xFFF (20_memory.md R200). -/
abbrev memSize : Nat := 0x1000

/-- What an address reads as that memory does not list: its contents after `initialize`, `FONT` at 0x000–0x04F and
0x00 elsewhere (20_memory.md R205, 10_state.md R140). -/
def resetByte (font : Vector (Vector Byte 5) 16) (a : Nat) : Byte :=
  if h : a < 80 then font[a / 5][a % 5] else 0

/-- The canonical form: addresses strictly rising, each in the address space, none listed with its reset contents. -/
abbrev Memory.wf (font : Vector (Vector Byte 5) 16) (m : Memory) : Prop :=
  m.Pairwise (fun c d => c.1 < d.1) ∧ ∀ c ∈ m, c.1 < memSize ∧ c.2 ≠ resetByte font c.1

/-- The byte listed at an address, if one is. -/
def Memory.find (a : Nat) : Memory → Option Byte
  | [] => none
  | (c, b) :: rest => if a = c then some b else Memory.find a rest

/-- The byte at an address. Callers reach it only for addresses below `memSize`. -/
def Memory.read (font : Vector (Vector Byte 5) 16) (m : Memory) (a : Nat) : Byte :=
  (Memory.find a m).getD (resetByte font a)

/-- List a byte at an address, in address order, replacing the one listed there. -/
def Memory.insert (a : Nat) (b : Byte) : Memory → Memory
  | [] => [(a, b)]
  | (c, d) :: rest =>
    if a < c then (a, b) :: (c, d) :: rest
    else if a = c then (a, b) :: rest
    else (c, d) :: Memory.insert a b rest

/-- List nothing at an address. -/
def Memory.erase (a : Nat) (m : Memory) : Memory := m.filter fun c => c.1 ≠ a

/-- Write a byte; the reset contents of an address are never listed. Callers reach it only for addresses below
`memSize`. -/
def Memory.write (font : Vector (Vector Byte 5) 16) (m : Memory) (a : Nat) (b : Byte) : Memory :=
  if b = resetByte font a then Memory.erase a m else Memory.insert a b m

/-- `MemRead(a, 1)` for an address in range (00_scope.md R16). -/
def State.byteAt (s : State) (a : Nat) : Byte := Memory.read s.cfg.font s.mem a

/-- `MemWrite(a, 1, b)` for an address in range (00_scope.md R16). -/
def State.storeByte (a : Nat) (b : Byte) (s : State) : State :=
  { s with mem := Memory.write s.cfg.font s.mem a b }

/-- Bytes at consecutive addresses from a, in order. -/
def State.storeBytes (a : Nat) : List Byte → State → State
  | [], s => s
  | b :: bs, s => State.storeBytes (a + 1) bs (s.storeByte a b)

/-- The bytes at a, a + 1, …, a + n − 1. -/
def State.loadBytes (s : State) (a n : Nat) : List Byte := (List.range n).map fun k => s.byteAt (a + k)

/-! ## Faults -/

/-- What `raise K(info)` names (60_exceptions.md R902). -/
structure Raise where
  /-- The kind K. -/
  kind : FaultKind
  /-- The address or value of the fault record. -/
  info : Word
deriving DecidableEq, Repr

/-- The bounds check of 20_memory.md R210 and R211 for the addresses base .. base + count − 1, sums that never wrap:
a fault of the given kind whose info is the lowest address above 0xFFF. No address is checked when count = 0. -/
def rangeFault (kind : FaultKind) (base count : Nat) : Option Raise :=
  if 0 < count ∧ 0xFFF < base + (count - 1) then some ⟨kind, trunc16 (max base 0x1000)⟩ else none

/-- Fault entry (60_exceptions.md R903): status ← Faulted and the fault record ← (kind, pc, opcode, info); everything
else keeps its value. There is no return from a fault but `initialize` (R911), which is `State.initial`. -/
def State.takeFault (r : Raise) (opcode : Word) (s : State) : State :=
  { s with status := .faulted, fault := ⟨r.kind, s.pc, opcode, r.info⟩ }

/-- An instruction that ends in a fault: the entry, as a next state. The opcode is the instruction's own word
(DEDUCED, assumption log entry 6). -/
def raiseFault (r : Raise) (opcode : Word) (s : State) : Result := .next (s.takeFault r opcode)

/-! ## Registers -/

/-- `V[x]` (00_scope.md R16). -/
def State.reg (s : State) (x : Fin 16) : Byte := s.v[x]

/-- `V[x] <- b` (00_scope.md R16). -/
def State.setReg (x : Fin 16) (b : Byte) (s : State) : State := { s with v := s.v.set x b }

/-- The whole register file at once. -/
def State.setRegs (v : Vector Byte 16) (s : State) : State := { s with v := v }

/-- The writes of an instruction with a result and a flag, in the order of `VF_ORDER` (10_state.md R103,
41_alu.md R531). -/
def State.setResultFlag (x : Fin 16) (result flag : Byte) (s : State) : State :=
  match s.cfg.vfOrder with
  | .flagLast => (s.setReg x result).setReg 15 flag
  | .resultLast => (s.setReg 15 flag).setReg x result

/-- `I <- w` (10_state.md R110). -/
def State.setIdx (w : Word) (s : State) : State := { s with idx := w }

/-! ## Program counter -/

/-- `pc <- w`. -/
def State.setPc (w : Word) (s : State) : State := { s with pc := w }

/-- "advance": `pc <- pc + 2` (00_scope.md R18). No step reaches a pc where the sum wraps (10_state.md R118);
applied elsewhere it wraps at 16 bits (DESIGN CHOICE, assumption log entry 7). -/
def State.advance (s : State) : State := { s with pc := s.pc + 2 }

/-- "skip" `pc <- pc + 4` if the condition holds, else "advance" (00_scope.md R18). -/
def State.skipIf (c : Prop) [Decidable c] (s : State) : State := { s with pc := s.pc + if c then 4 else 2 }

/-- The clean halt: `status <- Halted`, pc keeps its value (40_control_flow.md R402). -/
def State.halt (s : State) : State := { s with status := .halted }

/-! ## Stack -/

/-- push = write at the stack pointer, then increment; none when sp = 16 (10_state.md R120, R121). -/
def State.push (w : Word) (s : State) : Option State :=
  if h : s.sp.val < 16 then some { s with stack := s.stack.set s.sp.val w, sp := ⟨s.sp.val + 1, by omega⟩ } else none

/-- pop = decrement, then read; none when sp = 0. The slot keeps its value (10_state.md R120, R121). -/
def State.pop (s : State) : Option (Word × State) :=
  if h : 0 < s.sp.val then
    some (s.stack[s.sp.val - 1]'(by omega), { s with sp := ⟨s.sp.val - 1, by omega⟩ })
  else none

/-! ## Timers, keys, display -/

/-- `DT <- b`. -/
def State.setDt (b : Byte) (s : State) : State := { s with dt := b }

/-- `ST <- b`. -/
def State.setSt (b : Byte) (s : State) : State := { s with st := b }

/-- "decremented … while nonzero", "never decremented below 0" (10_state.md R125). -/
def decTimer (b : Byte) : Byte := if b = 0 then 0 else b - 1

/-- `timer_decrement()` of 60_exceptions.md R924: both timers, and the beep, ST = 1 before. -/
def State.timerDecrement (s : State) : State × Bool :=
  ({ s with dt := decTimer s.dt, st := decTimer s.st }, s.st = 1)

/-- The whole key state at once (60_exceptions.md R932). -/
def State.setKeys (keys : Vector Bool 16) (s : State) : State := { s with keys := keys }

/-- The display and the draw flag that 00E0 and DXYN set (10_state.md R136). -/
def State.setDisplay (d : Display) (s : State) : State := { s with disp := d, drawFlag := true }

/-- One CXNN draw was taken. -/
def State.countDraw (s : State) : State := { s with draws := s.draws + 1 }

end Sys2Proof.Machine
end

