-- ==== Sys2Proof/Machine/Operands.lean ====
section
/-!
DEFINITION. The operand forms: zero-extended immediates and registers, the draw, key indices, memory ranges at I,
BCD digits, glyph addresses, pixels (30_encoding.md R302; 42_index_memory.md; 43_display.md R702, R703).
-/

namespace Sys2Proof.Machine

/-- `zext_16(NNN)` (30_encoding.md R302). -/
def zextImm (nnn : Imm12) : Word := nnn.setWidth 16

/-- `zext_16(v)` of a byte (00_scope.md R15). -/
def zextByte (b : Byte) : Word := b.setWidth 16

/-- The draw of this CXNN (41_alu.md R520): any byte. -/
def State.rand (s : State) : Byte := Config.randByte s.draws

/-- The address of I as an unbounded number (20_memory.md R210). -/
def State.base (s : State) : Nat := s.idx.toNat

/-- The key that a register names, where its value is at most 0xF (44_keys_timers.md R800). -/
def keyIndex? (b : Byte) : Option (Fin 16) := if h : b.toNat < 16 then some ⟨b.toNat, h⟩ else none

/-- The fault of a key index above 0xF (44_keys_timers.md R800, R801). -/
def keyIndexFault (b : Byte) : Raise := ⟨.keyIndexOutOfRange, zextByte b⟩

/-- Key k is pressed: `key[k] = 1` (10_state.md R130). -/
def State.keyPressed (s : State) (k : Fin 16) : Bool := s.keys[k]

/-- The lowest pressed key (44_keys_timers.md R803, D10). -/
def State.lowestKey (s : State) : Option (Fin 16) := (List.finRange 16).find? s.keyPressed

/-- Hundreds, tens and ones (42_index_memory.md R603). -/
def bcdDigits (b : Byte) : List Byte := [trunc8 (b.toNat / 100), trunc8 (b.toNat / 10 % 10), trunc8 (b.toNat % 10)]

/-- The address of the glyph of a value, not masked to a nibble (42_index_memory.md R602, D31). -/
def glyphAddress (b : Byte) : Word := trunc16 (b.toNat * 5)

/-- The values of V0..VX, lowest first (42_index_memory.md R604). -/
def State.dumpBytes (s : State) (x : Fin 16) : List Byte := s.v.toList.take (x.val + 1)

/-- The register file with V0..VX read from I..I+X and the others as they were (42_index_memory.md R605). -/
def State.loadedRegs (s : State) (x : Fin 16) : Vector Byte 16 :=
  Vector.ofFn fun i => if i ≤ x then s.byteAt (s.base + i.val) else s.reg i

/-- Pixel (x mod 64, y mod 32) as an index into `disp` (43_display.md R702, R703). -/
def pixelIndex (x y : Nat) : Nat := y % 32 * 64 + x % 64

/-- The pixels of one sprite row whose bit is set, by column: column c is bit 7 − c (43_display.md R703).
PRESUMED, unsafe: the bit order is the spec's general knowledge (G2, D13); assumption log entry 9. -/
def rowPixels (x0 y : Nat) (b : Byte) : List Nat :=
  ((List.range 8).filter fun c => b.getLsbD (7 - c)).map fun c => pixelIndex (x0 + c) y

/-- The pixels of a sprite whose bit is set, in the order DXYN visits them (43_display.md R701). -/
def spritePixels (x0 y0 : Nat) (rows : List Byte) : List Nat :=
  rows.zipIdx.flatMap fun r => rowPixels x0 (y0 + r.2) r.1

/-- `disp[j]` (43_display.md R702). -/
def Display.pixel (d : Display) (j : Nat) : Bool :=
  if h : j < 2048 then (d[j / 64]'(by omega)).getLsbD (j % 64) else false

/-- `disp[j] <- disp[j] XOR 1`. -/
def Display.toggle (d : Display) (j : Nat) : Display :=
  if h : j < 2048 then d.set (j / 64) (d[j / 64]'(by omega) ^^^ BitVec.twoPow 64 (j % 64)) else d

/-- Toggle pixels in turn; the second component collects whether one of them was set before its toggle
(43_display.md R701). -/
def drawPixels (js : List Nat) (acc : Display × Bool) : Display × Bool :=
  js.foldl (fun a j => (Display.toggle a.1 j, a.2 || Display.pixel a.1 j)) acc

end Sys2Proof.Machine
end

