-- ==== Sys2Proof/Machine/Cycle.lean ====
section
/-!
DEFINITION. The parts of the step cycle around exec (30_encoding.md R330): fetch, what a step has to do, what it adds
after the instruction's own writes, and the step result.
-/

namespace Sys2Proof.Machine

/-- Fetch (20_memory.md R215): the two bytes at pc and pc + 1, the high byte first; `FetchOutOfRange` with info = pc
when pc + 1 > 0xFFF, and nothing is read (60_exceptions.md R901). -/
def State.fetch (s : State) : Except Raise Word :=
  if s.pc.toNat + 1 ≤ 0xFFF then .ok (wordOfBytes (s.byteAt s.pc.toNat) (s.byteAt (s.pc.toNat + 1)))
  else .error ⟨.fetchOutOfRange, s.pc⟩

/-- What a step finds to do. -/
inductive Work where
  /-- The block is stopped: nothing is fetched and nothing changes (60_exceptions.md R910, D19). -/
  | idle
  /-- Fetch or decode faults, with the opcode to record (R905). -/
  | raises (r : Raise) (opcode : Word)
  /-- An instruction was fetched and decoded. -/
  | runs (i : Instr)
deriving DecidableEq, Repr

/-- Status test, fetch and decode, in the order of 30_encoding.md R330. -/
def State.work (s : State) : Work :=
  match s.status with
  | .halted => .idle
  | .faulted => .idle
  | .running =>
    match s.fetch with
    | .error r => .raises r 0
    | .ok op =>
      match decode op with
      | .ok i => .runs i
      | .error _ => .raises ⟨.unknownOpcode, op⟩ op

/-- The instruction's outcome in this state is Wait: FX0A with no key pressed (44_keys_timers.md R803). -/
def State.waitsAt (s : State) : Instr → Bool
  | .ldVxK _ => s.lowestKey.isNone
  | .cls | .ret | .jp _ | .call _ | .seImm _ _ | .sneImm _ _ | .seReg _ _ | .ldImm _ _ | .addImm _ _ | .ldReg _ _
  | .or _ _ | .and _ _ | .xor _ _ | .addReg _ _ | .sub _ _ | .shr _ _ | .subn _ _ | .shl _ _ | .sneReg _ _ | .ldI _
  | .jpV0 _ | .rnd _ _ | .drw _ _ _ | .skp _ | .sknp _ | .ldVxDt _ | .ldDtVx _ | .ldStVx _ | .addIVx _ | .ldFVx _
  | .ldBVx _ | .ldMemVx _ | .ldVxMem _ => false

/-- The instruction committed: it neither waited nor faulted (30_encoding.md R330). s is the state before, t after. -/
def committed (i : Instr) (s t : State) : Bool := !s.waitsAt i && t.status ≠ .faulted

/-- What a step adds after the instruction's own writes: the timer decrement of a committing step when
`STEP_DECREMENTS_TIMERS` is true, with its beep (30_encoding.md R336, 60_exceptions.md R925). -/
def finishStep (i : Instr) (s t : State) : State × Bool :=
  if s.cfg.stepDecrementsTimers && committed i s t then t.timerDecrement else (t, false)

/-- The step result (30_encoding.md R337). -/
inductive StepResult where
  /-- The instruction committed or waits, and the block runs on. -/
  | continue
  /-- The block is halted, by this step or an earlier one. -/
  | halted
  /-- The block is faulted, by this step or an earlier one. -/
  | faulted
deriving DecidableEq, Repr

/-- The result a step returns, from the status it leaves (30_encoding.md R330, R337). -/
def State.stepResult (s : State) : StepResult :=
  match s.status with
  | .running => .continue
  | .halted => .halted
  | .faulted => .faulted

/-- Place an opcode word where the next step fetches it and see that the next step fetches: status Running, and pc at
the entry point 0x200 where pc itself addresses no two bytes of memory (assumption log entry 8). -/
def State.placeWord (s : State) (op : Word) : State :=
  let a : Word := if s.pc.toNat + 1 ≤ 0xFFF then s.pc else 0x200
  { s.storeBytes a.toNat (bytesOfWord op) with pc := a, status := .running }

end Sys2Proof.Machine
end

