-- ==== Sys2Proof/Machine/Flags.lean ====
section
/-!
DEFINITION. The flag computations: every value that 8XY4–8XY7, 8XYE, FX1E and DXYN put into VF (10_state.md R101).
Sums and comparisons are on natural numbers (00_scope.md R15).
-/

namespace Sys2Proof.Machine

/-- A flag as VF holds it: 1 or 0. -/
def flagByte (c : Prop) [Decidable c] : Byte := if c then 1 else 0

/-- 8XY4: 1 "if the unsigned sum exceeds 255" (41_alu.md R506). -/
def carryFlag (a b : Byte) : Byte := flagByte (255 < a.toNat + b.toNat)

/-- 8XY5 and 8XY7: 1 if the minuend is at least the subtrahend, no borrow (R507, R509). -/
def noBorrowFlag (minuend subtrahend : Byte) : Byte := flagByte (subtrahend.toNat ≤ minuend.toNat)

/-- 8XY6: the least-significant bit before the shift (R508). -/
def shiftedOutRight (a : Byte) : Byte := flagByte (a.getLsbD 0 = true)

/-- 8XYE: the most-significant bit before the shift (R510). -/
def shiftedOutLeft (a : Byte) : Byte := flagByte (a.getLsbD 7 = true)

/-- FX1E: 1 if the unwrapped sum exceeds 0xFFF (42_index_memory.md R601, D7). -/
def indexFlag (i : Word) (b : Byte) : Byte := flagByte (0xFFF < i.toNat + b.toNat)

/-- DXYN: 1 if a pixel was turned off (43_display.md R701). -/
def collisionFlag (collide : Bool) : Byte := flagByte (collide = true)

end Sys2Proof.Machine
end

