-- ==== Sys2Proof/Machine/Alu.lean ====
section
/-!
DEFINITION. Register loads, arithmetic, logic, shifts and the random byte (41_alu.md).
Every operand is read from the pre-state; all advance pc by 2 and raise nothing.
-/

namespace Sys2Proof.Machine

/-- 6XNN LD Vx, NN (R500). -/
def execLdImm (x : Reg) (nn : Byte) (s : State) : Result := .next (s.setReg x nn).advance

/-- 7XNN ADD Vx, NN (R501): the carry is discarded and VF is no flag here. -/
def execAddImm (x : Reg) (nn : Byte) (s : State) : Result :=
  .next (s.setReg x (trunc8 ((s.reg x).toNat + nn.toNat))).advance

/-- 8XY0 LD Vx, Vy (R502). -/
def execLdReg (x y : Reg) (s : State) : Result := .next (s.setReg x (s.reg y)).advance

/-- 8XY1 OR Vx, Vy (R503). -/
def execOr (x y : Reg) (s : State) : Result := .next (s.setReg x (s.reg x ||| s.reg y)).advance

/-- 8XY2 AND Vx, Vy (R504). -/
def execAnd (x y : Reg) (s : State) : Result := .next (s.setReg x (s.reg x &&& s.reg y)).advance

/-- 8XY3 XOR Vx, Vy (R505). -/
def execXor (x y : Reg) (s : State) : Result := .next (s.setReg x (s.reg x ^^^ s.reg y)).advance

/-- 8XY4 ADD Vx, Vy (R506, R531). -/
def execAddReg (x y : Reg) (s : State) : Result :=
  .next (s.setResultFlag x (trunc8 ((s.reg x).toNat + (s.reg y).toNat)) (carryFlag (s.reg x) (s.reg y))).advance

/-- 8XY5 SUB Vx, Vy: V[X] − V[Y] (R507, R531). -/
def execSub (x y : Reg) (s : State) : Result :=
  .next (s.setResultFlag x (trunc8 ((s.reg x).toNat + 256 - (s.reg y).toNat))
    (noBorrowFlag (s.reg x) (s.reg y))).advance

/-- 8XY6 SHR Vx, Vy (R508, R531); Y is decoded but unused (D30). -/
def execShr (x _y : Reg) (s : State) : Result :=
  .next (s.setResultFlag x (s.reg x >>> 1) (shiftedOutRight (s.reg x))).advance

/-- 8XY7 SUBN Vx, Vy: V[Y] − V[X] (R509, R531). -/
def execSubn (x y : Reg) (s : State) : Result :=
  .next (s.setResultFlag x (trunc8 ((s.reg y).toNat + 256 - (s.reg x).toNat))
    (noBorrowFlag (s.reg y) (s.reg x))).advance

/-- 8XYE SHL Vx, Vy (R510, R531); Y is decoded but unused (D30). -/
def execShl (x _y : Reg) (s : State) : Result :=
  .next (s.setResultFlag x (s.reg x <<< 1) (shiftedOutLeft (s.reg x))).advance

/-- CXNN RND Vx, NN (R520): one fresh draw, a free value (assumption log entry 4). -/
def execRnd (x : Reg) (nn : Byte) (s : State) : Result := .next (s.setReg x (s.rand &&& nn)).countDraw.advance

end Sys2Proof.Machine
end

