-- ==== Sys2Proof/Machine/ControlFlow.lean ====
section
/-!
DEFINITION. Jumps, calls, returns and register skips (40_control_flow.md).
-/

namespace Sys2Proof.Machine

/-- 00EE RET (R401): pop the stack into pc, with no +2; `StackUnderflow` when sp = 0. -/
def execRet (s : State) : Result :=
  match s.pop with
  | some (t, s') => .next (s'.setPc t)
  | none => raiseFault ⟨.stackUnderflow, 0⟩ (encode .ret) s

/-- 1NNN JP (R402): a jump to its own address halts the block. -/
def execJp (nnn : Imm12) (s : State) : Result :=
  if zextImm nnn = s.pc then .next s.halt else .next (s.setPc (zextImm nnn))

/-- 2NNN CALL (R403): push pc + 2 and jump; `StackOverflow` with the target as info when sp = 16. -/
def execCall (nnn : Imm12) (s : State) : Result :=
  match s.push (s.pc + 2) with
  | some s' => .next (s'.setPc (zextImm nnn))
  | none => raiseFault ⟨.stackOverflow, zextImm nnn⟩ (encode (.call nnn)) s

/-- 3XNN SE Vx, NN (R404). -/
def execSeImm (x : Reg) (nn : Byte) (s : State) : Result := .next (s.skipIf (s.reg x = nn))

/-- 4XNN SNE Vx, NN (R405). -/
def execSneImm (x : Reg) (nn : Byte) (s : State) : Result := .next (s.skipIf (s.reg x ≠ nn))

/-- 5XY0 SE Vx, Vy (R406). -/
def execSeReg (x y : Reg) (s : State) : Result := .next (s.skipIf (s.reg x = s.reg y))

/-- 9XY0 SNE Vx, Vy (R407). -/
def execSneReg (x y : Reg) (s : State) : Result := .next (s.skipIf (s.reg x ≠ s.reg y))

/-- BNNN JP V0, NNN (R408): the register is always V0; a target equal to pc does not halt (D29). -/
def execJpV0 (nnn : Imm12) (s : State) : Result := .next (s.setPc (zextImm nnn + zextByte (s.reg Reg.v0)))

end Sys2Proof.Machine
end

