-- ==== Sys2Proof/Machine/Display.lean ====
section
/-!
DEFINITION. The framebuffer and the sprite rasterizer (43_display.md).
-/

namespace Sys2Proof.Machine

/-- 00E0 CLS (R700): every pixel 0, the draw flag set even when the display was clear (D40). -/
def execCls (s : State) : Result := .next (s.setDisplay .blank).advance

/-- DXYN DRW Vx, Vy, N (R701): the coordinates are read before VF is reset (D15); N = 0 reads no memory (D14). -/
def execDrw (x y : Reg) (n : Fin 16) (s : State) : Result :=
  match rangeFault .memReadOutOfRange s.base n.val with
  | some r => raiseFault r (encode (.drw x y n)) s
  | none =>
    let d := drawPixels (spritePixels (s.reg x).toNat (s.reg y).toNat (s.loadBytes s.base n.val)) (s.disp, false)
    .next ((s.setDisplay d.1).setReg Reg.vf (collisionFlag d.2)).advance

end Sys2Proof.Machine
end

