-- ==== Sys2Proof/Machine/IndexMemory.lean ====
section
/-!
DEFINITION. The index register and memory transfer (42_index_memory.md).
Every address is checked before anything is written (20_memory.md R210).
-/

namespace Sys2Proof.Machine

/-- ANNN LD I, NNN (R600). -/
def execLdI (nnn : Imm12) (s : State) : Result := .next (s.setIdx (zextImm nnn)).advance

/-- FX1E ADD I, Vx (R601): VF is tested on the unwrapped sum (D7). -/
def execAddIVx (x : Reg) (s : State) : Result :=
  .next ((s.setIdx (trunc16 (s.idx.toNat + (s.reg x).toNat))).setReg Reg.vf (indexFlag s.idx (s.reg x))).advance

/-- FX29 LD F, Vx (R602). -/
def execLdFVx (x : Reg) (s : State) : Result := .next (s.setIdx (glyphAddress (s.reg x))).advance

/-- FX33 LD B, Vx (R603): three digits at I, I+1, I+2; I is not changed. -/
def execLdBVx (x : Reg) (s : State) : Result :=
  match rangeFault .memWriteOutOfRange s.base 3 with
  | some r => raiseFault r (encode (.ldBVx x)) s
  | none => .next (s.storeBytes s.base (bcdDigits (s.reg x))).advance

/-- FX55 LD [I], Vx (R604): V0..VX at I..I+X, then I advances by X + 1. -/
def execLdMemVx (x : Reg) (s : State) : Result :=
  match rangeFault .memWriteOutOfRange s.base (x.val + 1) with
  | some r => raiseFault r (encode (.ldMemVx x)) s
  | none => .next ((s.storeBytes s.base (s.dumpBytes x)).setIdx (trunc16 (s.base + x.val + 1))).advance

/-- FX65 LD Vx, [I] (R605): V0..VX from I..I+X; I is not changed. -/
def execLdVxMem (x : Reg) (s : State) : Result :=
  match rangeFault .memReadOutOfRange s.base (x.val + 1) with
  | some r => raiseFault r (encode (.ldVxMem x)) s
  | none => .next (s.setRegs (s.loadedRegs x)).advance

end Sys2Proof.Machine
end

