-- ==== Sys2Proof/Machine/KeysTimers.lean ====
section
/-!
DEFINITION. Key input and timer instructions (44_keys_timers.md).
-/

namespace Sys2Proof.Machine

/-- EX9E SKP Vx (R800). -/
def execSkp (x : Reg) (s : State) : Result :=
  match keyIndex? (s.reg x) with
  | some k => .next (s.skipIf (s.keyPressed k = true))
  | none => raiseFault (keyIndexFault (s.reg x)) (encode (.skp x)) s

/-- EXA1 SKNP Vx (R801). -/
def execSknp (x : Reg) (s : State) : Result :=
  match keyIndex? (s.reg x) with
  | some k => .next (s.skipIf (s.keyPressed k = false))
  | none => raiseFault (keyIndexFault (s.reg x)) (encode (.sknp x)) s

/-- FX07 LD Vx, DT (R802). -/
def execLdVxDt (x : Reg) (s : State) : Result := .next (s.setReg x s.dt).advance

/-- FX0A LD Vx, K (R803): the lowest pressed key, or a wait that changes nothing. -/
def execLdVxK (x : Reg) (s : State) : Result :=
  match s.lowestKey with
  | some k => .next (s.setReg x (trunc8 k.val)).advance
  | none => .next s

/-- FX15 LD DT, Vx (R804). -/
def execLdDtVx (x : Reg) (s : State) : Result := .next (s.setDt (s.reg x)).advance

/-- FX18 LD ST, Vx (R805). -/
def execLdStVx (x : Reg) (s : State) : Result := .next (s.setSt (s.reg x)).advance

end Sys2Proof.Machine
end

