-- ==== Sys2Proof/Machine/Step.lean ====
section
/-!
DEFINITION. The step (30_encoding.md R330): the work found in the state, run by exec, finished by `finishStep`.
-/

namespace Sys2Proof.Machine

/-- One step with the beep it emits: an output of the operation, not state (60_exceptions.md R925). -/
def stepBeep (s : State) : Host.Outcome (State × Bool) Fault Refusal :=
  match s.work with
  | .idle => .next (s, false)
  | .raises r op => .next (s.takeFault r op, false)
  | .runs i =>
    match exec i s with
    | .next t => .next (finishStep i s t)
    | .fault r => .fault r
    | .refused r => .refused r

/-- `step` "executes exactly one instruction" (30_encoding.md R330); at a stopped block it changes nothing. -/
def step (s : State) : Host.Outcome State Fault Refusal :=
  match stepBeep s with
  | .next r => .next r.1
  | .fault r => .fault r
  | .refused r => .refused r

/-- The state with an opcode-table word placed where step fetches its next instruction (assumption log entry 8). -/
def State.withFetchWord (s : State) (nbits w : Nat) : State := s.placeWord (tableWord nbits w)

end Sys2Proof.Machine
end

