-- ==== Sys2Proof/Machine/HostOps.lean ====
section
/-!
DEFINITION. The block's operations (00_scope.md R12) and their runs. Every operation is atomic, and an execution is one
total order of operations in any interleaving (20_memory.md R230): a list of `HostOp`.
-/

namespace Sys2Proof.Machine

/-- A block: before its first `initialize`, with only its parameters, or with a state (70_reset_and_hazards.md R1020).
DESIGN CHOICE, safe: assumption log entry 5. -/
inductive Block where
  /-- `initialize` was never called: the state is unspecified. -/
  | uninitialised (cfg : Config)
  /-- The block has the state. -/
  | ready (s : State)
deriving DecidableEq, Repr

/-- The operations of 00_scope.md R12 and the two reads of 60_exceptions.md R935. -/
inductive HostOp where
  /-- `initialize()` (70_reset_and_hazards.md R1001). -/
  | initializeBlock
  /-- `load_program(bytes)` (R1010). -/
  | loadProgram (bytes : List Byte)
  /-- `step()` (30_encoding.md R330). -/
  | step
  /-- `tick_timers()` (60_exceptions.md R924). -/
  | tickTimers
  /-- `set_keys(keyVector)` (R932). -/
  | setKeys (keys : Vector Bool 16)
  /-- `consume_draw_flag()` (R933). -/
  | consumeDrawFlag
  /-- `has_halted()` (R934). -/
  | hasHalted
  /-- The display read port (R931). -/
  | readDisplay
  /-- The status read (R935). -/
  | readStatus
  /-- The fault record read (R935). -/
  | readFault
deriving DecidableEq, Repr

/-- What an operation gives back to the host (00_scope.md R12). -/
inductive OpOutput where
  /-- Nothing: `initialize`, `set_keys`. -/
  | nothing
  /-- The byte count of a load. -/
  | byteCount (n : Nat)
  /-- The load was refused as too large; a result, not a fault (60_exceptions.md R904). -/
  | imageTooLarge
  /-- The step result, and whether the step's own timer decrement emitted a beep. -/
  | stepped (r : StepResult) (beep : Bool)
  /-- The beep event of a tick. -/
  | beep (b : Bool)
  /-- A Boolean: the draw flag consumed, has_halted. -/
  | flag (b : Bool)
  /-- The 2048 bytes of the display, each 0 or 1. -/
  | display (d : List Byte)
  /-- The status. -/
  | status (s : Status)
  /-- The fault record. -/
  | faultRecord (f : FaultRecord)
deriving DecidableEq, Repr

/-- The code of a status (10_state.md R137). -/
def Status.code : Status → Nat
  | .running => 0
  | .halted => 1
  | .faulted => 2

/-- The code of a fault kind (60_exceptions.md R900). -/
def FaultKind.code : FaultKind → Nat
  | .noFault => 0
  | .unknownOpcode => 1
  | .stackOverflow => 2
  | .stackUnderflow => 3
  | .memWriteOutOfRange => 4
  | .memReadOutOfRange => 5
  | .fetchOutOfRange => 6
  | .keyIndexOutOfRange => 7

/-- The largest program image, 0x1000 − 0x200 bytes (70_reset_and_hazards.md R1010, C2). -/
abbrev maxImage : Nat := 3584

/-- `load_program` (R1010): nothing is written when the image is too large, else byte i goes to 0x200 + i. -/
def State.loadProgram (bytes : List Byte) (s : State) : State × OpOutput :=
  if maxImage < bytes.length then (s, .imageTooLarge) else (s.storeBytes 0x200 bytes, .byteCount bytes.length)

/-- `initialize` on a block with a state (R1001, R1002). The parameters stay, and the draw counter goes on, so that no
draw is taken twice (assumption log entry 4). -/
def State.reinitialise (s : State) : State := State.initial s.cfg s.draws

/-- The display as the host reads it: 2048 bytes of 0 or 1 (60_exceptions.md R931). -/
def State.displayBytes (s : State) : List Byte :=
  (List.range 2048).map fun j => if Display.pixel s.disp j then 1 else 0

/-- `has_halted()` is `status ≠ Running` (60_exceptions.md R934). -/
def State.hasHalted (s : State) : Bool := s.status ≠ .running

/-- An operation on an initialised block. -/
def State.applyOp (s : State) : HostOp → Host.Outcome (State × OpOutput) Fault Refusal
  | .initializeBlock => .next (s.reinitialise, .nothing)
  | .loadProgram bytes => .next (s.loadProgram bytes)
  | .step =>
    match stepBeep s with
    | .next r => .next (r.1, .stepped r.1.stepResult r.2)
    | .fault r => .fault r
    | .refused r => .refused r
  | .tickTimers => .next (s.timerDecrement.1, .beep s.timerDecrement.2)
  | .setKeys keys => .next (s.setKeys keys, .nothing)
  | .consumeDrawFlag => .next ({ s with drawFlag := false }, .flag s.drawFlag)
  | .hasHalted => .next (s, .flag s.hasHalted)
  | .readDisplay => .next (s, .display s.displayBytes)
  | .readStatus => .next (s, .status s.status)
  | .readFault => .next (s, .faultRecord s.fault)

/-- An operation on a block: before the first `initialize`, every other operation is refused
(70_reset_and_hazards.md R1020). -/
def applyOp (b : Block) (op : HostOp) : Host.Outcome (Block × OpOutput) Fault Refusal :=
  match b with
  | .uninitialised cfg =>
    match op with
    | .initializeBlock => .next (.ready (State.initial cfg 0), .nothing)
    | .loadProgram _ | .step | .tickTimers | .setKeys _ | .consumeDrawFlag | .hasHalted | .readDisplay | .readStatus
    | .readFault => .refused .notInitialised
  | .ready s =>
    match s.applyOp op with
    | .next r => .next (.ready r.1, r.2)
    | .fault r => .fault r
    | .refused r => .refused r

/-- An execution: operations in one total order, each on the block the earlier ones left (20_memory.md R230), with
their outputs in that order. -/
def runOps : List HostOp → Block → Host.Outcome (Block × List OpOutput) Fault Refusal
  | [], b => .next (b, [])
  | op :: ops, b =>
    match applyOp b op with
    | .next r =>
      match runOps ops r.1 with
      | .next q => .next (q.1, r.2 :: q.2)
      | .fault f => .fault f
      | .refused f => .refused f
    | .fault f => .fault f
    | .refused f => .refused f

end Sys2Proof.Machine
end

