-- ==== Sys2Proof/Safety.lean ====
section
/-!
DEFINITION. What claims are stated in: the invariant of the core, reachable blocks, which registers an instruction
writes and reads (10_state.md R102), the pixels a sprite covers (43_display.md R703), and maps over results.
-/

namespace Sys2Proof

/-- The instructions that write VF as a flag (10_state.md R101, R102). -/
def Instr.writesFlag : Instr → Bool
  | .addReg _ _ | .sub _ _ | .shr _ _ | .subn _ _ | .shl _ _ | .drw _ _ _ | .addIVx _ => true
  | .cls | .ret | .jp _ | .call _ | .seImm _ _ | .sneImm _ _ | .seReg _ _ | .ldImm _ _ | .addImm _ _ | .ldReg _ _
  | .or _ _ | .and _ _ | .xor _ _ | .sneReg _ _ | .ldI _ | .jpV0 _ | .rnd _ _ | .skp _ | .sknp _ | .ldVxDt _
  | .ldVxK _ | .ldDtVx _ | .ldStVx _ | .ldFVx _ | .ldBVx _ | .ldMemVx _ | .ldVxMem _ => false

/-- Register r is a destination of the instruction: V[X], or V0..VX for FX65 (10_state.md R102). -/
def Instr.hasDest (i : Instr) (r : Reg) : Bool :=
  match i with
  | .ldImm x _ | .addImm x _ | .rnd x _ | .ldVxDt x | .ldVxK x => r = x
  | .ldReg x _ | .or x _ | .and x _ | .xor x _ | .addReg x _ | .sub x _ | .shr x _ | .subn x _ | .shl x _ => r = x
  | .ldVxMem x => r ≤ x
  | .cls | .ret | .jp _ | .call _ | .seImm _ _ | .sneImm _ _ | .seReg _ _ | .sneReg _ _ | .ldI _ | .jpV0 _
  | .drw _ _ _ | .skp _ | .sknp _ | .ldDtVx _ | .ldStVx _ | .addIVx _ | .ldFVx _ | .ldBVx _ | .ldMemVx _ => false

/-- The instruction reads register r (10_state.md R102; the Y of the shifts is not read, D30). -/
def Instr.readsReg (i : Instr) (r : Reg) : Bool :=
  match i with
  | .seImm x _ | .sneImm x _ | .addImm x _ | .shr x _ | .shl x _ | .skp x | .sknp x | .ldDtVx x | .ldStVx x
  | .addIVx x | .ldFVx x | .ldBVx x => r = x
  | .seReg x y | .sneReg x y | .or x y | .and x y | .xor x y | .addReg x y | .sub x y | .subn x y | .drw x y _ =>
    r = x || r = y
  | .ldReg _ y => r = y
  | .ldMemVx x => r ≤ x
  | .jpV0 _ => r = Reg.v0
  | .cls | .ret | .jp _ | .call _ | .ldImm _ _ | .ldI _ | .rnd _ _ | .ldVxDt _ | .ldVxK _ | .ldVxMem _ => false

end Sys2Proof

namespace Sys2Proof.Machine

/-- A run is safe as long as the block has not faulted (60_exceptions.md R903). -/
def State.Safe (s : State) : Prop := s.status ≠ .faulted

/-- The invariant of the core; every operation keeps it. -/
structure State.Inv (s : State) : Prop where
  /-- Memory is in its canonical form, so equal memories are equal data. -/
  memCanonical : Memory.wf s.cfg.font s.mem
  /-- "Every value written to pc is therefore at most 0x10FE" (10_state.md R118). -/
  pcRange : s.pc.toNat ≤ 0x10FE
  /-- "The pushed value is at most 0x1000" (40_control_flow.md R403). -/
  stackRange : ∀ j : Fin 16, (s.stack[j]).toNat ≤ 0x1000
  /-- A fault is recorded exactly in status Faulted (10_state.md R138, 60_exceptions.md R903). -/
  faultRecorded : s.status = .faulted ↔ s.fault.kind ≠ .noFault
  /-- Without a fault the record is all zero (10_state.md R150, 60_exceptions.md R900 code 0). -/
  emptyRecord : s.fault.kind = .noFault → s.fault = .empty
  /-- The recorded pc is the pc, which a fault leaves in place (60_exceptions.md R903). -/
  faultPc : s.status = .faulted → s.fault.pc = s.pc

/-- The blocks that operations lead to from an uninitialised one, in any order (20_memory.md R230). -/
inductive Reachable : Block → Prop where
  /-- A block that was never initialised. -/
  | start (cfg : Config) : Reachable (.uninitialised cfg)
  /-- One more operation. -/
  | op {b b' : Block} {o : HostOp} {out : OpOutput} (h : Reachable b) (ho : applyOp b o = .next (b', out)) :
    Reachable b'

/-- Apply a function to the next state of a result; a fault or a refusal stays. -/
def Result.map (f : State → State) : Result → Result
  | .next t => .next (f t)
  | .fault r => .fault r
  | .refused r => .refused r

/-- Pixel (px, py) lies under a set bit of the sprite that DXYN draws: row r is drawn at (V[Y] + r) mod 32, and bit
7 − c of its byte at (V[X] + c) mod 64 (43_display.md R703). -/
def State.spriteCovers (s : State) (x y : Reg) (n : Fin 16) (px py : Nat) : Prop :=
  ∃ r < n.val, ∃ c < 8, (s.byteAt (s.idx.toNat + r)).getLsbD (7 - c) = true ∧
    px = ((s.reg x).toNat + c) % 64 ∧ py = ((s.reg y).toNat + r) % 32

/-- Pixel (x, y) of the display is `disp[y * 64 + x]` (43_display.md R702). -/
def State.pixelAt (s : State) (px py : Nat) : Bool := Display.pixel s.disp (py * 64 + px)

end Sys2Proof.Machine
end

