-- ==== Sys2Proof/Certificates/Slice0/Obligations.lean ====
section
/-!
DEFINITION. The statements for the provers, one `def Obligations.<Name> : Prop` each.
A result statement is an equation `exec i s = next t` with t written out as an update of s: it says that the
instruction completes, what it leaves, and that every other field, every other register and every byte of memory stays.
Where an instruction stores to memory, the stored bytes are read back, every other address reads as before, and the
remaining fields are given by an update of s. "D<n>" is a decision of spec/92_eei_decisions.md: a statement that rests
on one has basis derived.
-/

open Sys2Proof Sys2Proof.Machine

/-- A register number as the four bits of its field (30_encoding.md R301). -/
def Sys2Proof.Spec.nib (x : Reg) : BitVec 4 := BitVec.ofNat 4 x.val

/-- The register file after a result for V[X] and a flag for VF, as `VF_ORDER` orders the two writes
(10_state.md R103). -/
def Sys2Proof.Spec.resultAndFlag (o : VfOrder) (v : Vector Byte 16) (x : Reg) (result flag : Byte) : Vector Byte 16 :=
  match o with
  | .flagLast => (v.set x result).set 15 flag
  | .resultLast => (v.set 15 flag).set x result

/-- The step's timer decrement as numbers: down by one while nonzero (60_exceptions.md R924). -/
def Sys2Proof.Spec.decremented (s : State) : State :=
  { s with dt := BitVec.ofNat 8 (s.dt.toNat - 1), st := BitVec.ofNat 8 (s.st.toNat - 1) }

/-- The state of a fault entry: status and record, nothing else (60_exceptions.md R903). -/
def Sys2Proof.Spec.faulted (s : State) (kind : FaultKind) (opcode info : Word) : State :=
  { s with status := .faulted, fault := ⟨kind, s.pc, opcode, info⟩ }

/-! ## Registers, arithmetic, logic, shifts -/

/-- R500 and R501: 6XNN writes NN, 7XNN the sum modulo 256; no flag, no fault, pc by 2, nothing else; each word of the
form decodes to it. -/
def Obligations.ImmediateLoadAndAdd : Prop :=
  ∀ (x : Reg) (nn : Byte) (s : State),
    decode (0x6#4 ++ Sys2Proof.Spec.nib x ++ nn) = .ok (.ldImm x nn) ∧
    exec (.ldImm x nn) s = .next { s with v := s.v.set x nn, pc := s.pc + 2 } ∧
    decode (0x7#4 ++ Sys2Proof.Spec.nib x ++ nn) = .ok (.addImm x nn) ∧
    exec (.addImm x nn) s =
      .next { s with v := s.v.set x (BitVec.ofNat 8 ((s.v[x].toNat + nn.toNat) % 256)), pc := s.pc + 2 }

/-- R502–R505: copy, OR, AND, XOR write V[X] from the pre-state operands; VF is not touched unless it is V[X]. -/
def Obligations.CopyAndLogic : Prop :=
  ∀ (x y : Reg) (s : State),
    decode (0x8#4 ++ Sys2Proof.Spec.nib x ++ Sys2Proof.Spec.nib y ++ 0x0#4) = .ok (.ldReg x y) ∧
    exec (.ldReg x y) s = .next { s with v := s.v.set x s.v[y], pc := s.pc + 2 } ∧
    decode (0x8#4 ++ Sys2Proof.Spec.nib x ++ Sys2Proof.Spec.nib y ++ 0x1#4) = .ok (.or x y) ∧
    exec (.or x y) s = .next { s with v := s.v.set x (s.v[x] ||| s.v[y]), pc := s.pc + 2 } ∧
    decode (0x8#4 ++ Sys2Proof.Spec.nib x ++ Sys2Proof.Spec.nib y ++ 0x2#4) = .ok (.and x y) ∧
    exec (.and x y) s = .next { s with v := s.v.set x (s.v[x] &&& s.v[y]), pc := s.pc + 2 } ∧
    decode (0x8#4 ++ Sys2Proof.Spec.nib x ++ Sys2Proof.Spec.nib y ++ 0x3#4) = .ok (.xor x y) ∧
    exec (.xor x y) s = .next { s with v := s.v.set x (s.v[x] ^^^ s.v[y]), pc := s.pc + 2 }

/-- 8XY4, 8XY5, 8XY7 (41_alu.md section 3), for every `VF_ORDER` (D2, log entry 2): result and flag from the pre-state
operands, as numbers. -/
def Obligations.AddAndSubtractWithFlag : Prop :=
  ∀ (x y : Reg) (s : State),
    exec (.addReg x y) s = .next { s with
      v := Sys2Proof.Spec.resultAndFlag s.cfg.vfOrder s.v x (BitVec.ofNat 8 ((s.v[x].toNat + s.v[y].toNat) % 256))
        (if s.v[x].toNat + s.v[y].toNat > 255 then 1 else 0),
      pc := s.pc + 2 } ∧
    exec (.sub x y) s = .next { s with
      v := Sys2Proof.Spec.resultAndFlag s.cfg.vfOrder s.v x
        (BitVec.ofNat 8 ((s.v[x].toNat + 256 - s.v[y].toNat) % 256)) (if s.v[x].toNat ≥ s.v[y].toNat then 1 else 0),
      pc := s.pc + 2 } ∧
    exec (.subn x y) s = .next { s with
      v := Sys2Proof.Spec.resultAndFlag s.cfg.vfOrder s.v x
        (BitVec.ofNat 8 ((s.v[y].toNat + 256 - s.v[x].toNat) % 256)) (if s.v[y].toNat ≥ s.v[x].toNat then 1 else 0),
      pc := s.pc + 2 }

/-- 8XY6 and 8XYE (41_alu.md section 3), for every `VF_ORDER` (D2, log entry 2) and every ignored Y (D30): halving and
doubling modulo 256, with the bit shifted out in VF. -/
def Obligations.ShiftsPutTheLostBitInFlag : Prop :=
  ∀ (x y : Reg) (s : State),
    exec (.shr x y) s = .next { s with
      v := Sys2Proof.Spec.resultAndFlag s.cfg.vfOrder s.v x (BitVec.ofNat 8 (s.v[x].toNat / 2))
        (BitVec.ofNat 8 (s.v[x].toNat % 2)),
      pc := s.pc + 2 } ∧
    exec (.shl x y) s = .next { s with
      v := Sys2Proof.Spec.resultAndFlag s.cfg.vfOrder s.v x (BitVec.ofNat 8 (s.v[x].toNat * 2 % 256))
        (BitVec.ofNat 8 (s.v[x].toNat / 128)),
      pc := s.pc + 2 }

/-- CXNN (41_alu.md section 4, D12): one fresh draw, whatever it is, ANDed with NN; the draw counter is the model's
own (log entry 4). -/
def Obligations.RandomByteIsMasked : Prop :=
  ∀ (x : Reg) (nn : Byte) (s : State),
    exec (.rnd x nn) s =
      .next { s with v := s.v.set x (Config.randByte s.draws &&& nn), draws := s.draws + 1, pc := s.pc + 2 }

/-! ## Control transfer -/

/-- R404 and R405: the skips on an immediate; the skipped word is not looked at. -/
def Obligations.SkipOnImmediate : Prop :=
  ∀ (x : Reg) (nn : Byte) (s : State),
    decode (0x3#4 ++ Sys2Proof.Spec.nib x ++ nn) = .ok (.seImm x nn) ∧
    exec (.seImm x nn) s = .next { s with pc := s.pc + if s.v[x] = nn then 4 else 2 } ∧
    decode (0x4#4 ++ Sys2Proof.Spec.nib x ++ nn) = .ok (.sneImm x nn) ∧
    exec (.sneImm x nn) s = .next { s with pc := s.pc + if s.v[x] = nn then 2 else 4 }

/-- 5XY0 and 9XY0 (40_control_flow.md; the exact match of N = 0 is D16). -/
def Obligations.SkipOnRegisters : Prop :=
  ∀ (x y : Reg) (s : State),
    exec (.seReg x y) s = .next { s with pc := s.pc + if s.v[x] = s.v[y] then 4 else 2 } ∧
    exec (.sneReg x y) s = .next { s with pc := s.pc + if s.v[x] = s.v[y] then 2 else 4 }

/-- 1NNN and BNNN (40_control_flow.md, D5, D29): a 1NNN to its own address halts with pc in place, any other sets pc;
BNNN goes to NNN + V[0] with no truncation, at most 0x10FE, and never halts, whatever pc was. -/
def Obligations.JumpsAndSelfJumpHalt : Prop :=
  ∀ (nnn : Imm12) (s : State),
    (exec (.jp nnn) s =
      if nnn.toNat = s.pc.toNat then .next { s with status := .halted }
      else .next { s with pc := BitVec.ofNat 16 nnn.toNat }) ∧
    ∃ t, exec (.jpV0 nnn) s = .next t ∧ t.pc.toNat = nnn.toNat + (s.v[0]).toNat ∧ t.pc.toNat ≤ 0x10FE ∧
      t = { s with pc := t.pc }

/-- 2NNN and 00EE (40_control_flow.md, D8) inside the stack's bounds: a call puts pc + 2 in slot sp, sp up by one, pc at
NNN; a return takes pc from slot sp − 1, sp down by one, the slots kept; nothing else changes. -/
def Obligations.CallAndReturn : Prop :=
  (∀ (nnn : Imm12) (s : State) (h : s.sp.val < 16), ∃ t,
    exec (.call nnn) s = .next t ∧ t.sp.val = s.sp.val + 1 ∧ t.stack = s.stack.set s.sp.val (s.pc + 2) ∧
    t = { s with stack := t.stack, sp := t.sp, pc := BitVec.ofNat 16 nnn.toNat }) ∧
  (∀ (s : State) (h : 0 < s.sp.val), ∃ t,
    exec .ret s = .next t ∧ t.sp.val = s.sp.val - 1 ∧ t.pc = s.stack[s.sp.val - 1]'(by omega) ∧
    t = { s with sp := t.sp, pc := t.pc })

/-- The stack faults (40_control_flow.md, D8, D17): 2NNN at sp = 16 and 00EE at sp = 0 take the fault entry with the
instruction's own word (log entry 6). -/
def Obligations.StackFaults : Prop :=
  (∀ (nnn : Imm12) (s : State), s.sp.val = 16 →
    exec (.call nnn) s = .next (Sys2Proof.Spec.faulted s .stackOverflow (0x2#4 ++ nnn) (BitVec.ofNat 16 nnn.toNat))) ∧
  (∀ s : State, s.sp.val = 0 → exec .ret s = .next (Sys2Proof.Spec.faulted s .stackUnderflow 0x00EE 0))

/-- Push and pop are inverse (40_control_flow.md, C4): a return at any state with the stack a call left comes back to
the instruction after the call, with sp as before it. -/
def Obligations.ReturnComesBackAfterCall : Prop :=
  ∀ (nnn : Imm12) (s t u v : State), s.sp.val < 16 → exec (.call nnn) s = .next t → u.stack = t.stack → u.sp = t.sp →
    exec .ret u = .next v → v.pc = s.pc + 2 ∧ v.sp = s.sp ∧ ∀ j : Fin 16, j.val < s.sp.val → v.stack[j] = s.stack[j]

/-- The table of pc updates (30_encoding.md section 5): set directly with no +2, skip by 4 or 2, unchanged by a waiting
FX0A and by every fault, and by 2 for all others. The skip conditions are those of 40_control_flow.md and
44_keys_timers.md (D34); that an EX9E or EXA1 which does not fault has V[X] < 16 is D9 (log entry 13). A self-jump,
which halts, leaves pc where NNN already is. -/
def Obligations.PcUpdateByInstruction : Prop :=
  ∀ (i : Instr) (s t : State), exec i s = .next t → s.status = .running →
    (t.status = .faulted → t.pc = s.pc) ∧
    (t.status ≠ .faulted →
      match i with
      | .jp nnn | .call nnn => t.pc.toNat = nnn.toNat
      | .jpV0 nnn => t.pc.toNat = nnn.toNat + (s.v[0]).toNat
      | .ret => ∃ h : s.sp.val - 1 < 16, t.pc = s.stack[s.sp.val - 1]
      | .seImm x nn => t.pc = s.pc + if s.v[x] = nn then 4 else 2
      | .sneImm x nn => t.pc = s.pc + if s.v[x] ≠ nn then 4 else 2
      | .seReg x y => t.pc = s.pc + if s.v[x] = s.v[y] then 4 else 2
      | .sneReg x y => t.pc = s.pc + if s.v[x] ≠ s.v[y] then 4 else 2
      | .skp x => ∃ h : s.v[x].toNat < 16, t.pc = s.pc + if s.keys[s.v[x].toNat] then 4 else 2
      | .sknp x => ∃ h : s.v[x].toNat < 16, t.pc = s.pc + if s.keys[s.v[x].toNat] then 2 else 4
      | .ldVxK _ => t.pc = s.pc + if ∃ k : Fin 16, s.keys[k] = true then 2 else 0
      | .cls | .ldImm _ _ | .addImm _ _ | .ldReg _ _ | .or _ _ | .and _ _ | .xor _ _ | .addReg _ _ | .sub _ _
      | .shr _ _ | .subn _ _ | .shl _ _ | .ldI _ | .rnd _ _ | .drw _ _ _ | .ldVxDt _ | .ldDtVx _ | .ldStVx _
      | .addIVx _ | .ldFVx _ | .ldBVx _ | .ldMemVx _ | .ldVxMem _ => t.pc = s.pc + 2)

/-! ## Index register and memory transfer -/

/-- R600: ANNN. -/
def Obligations.LoadIndex : Prop :=
  ∀ (nnn : Imm12) (s : State),
    decode (0xA#4 ++ nnn) = .ok (.ldI nnn) ∧
    exec (.ldI nnn) s = .next { s with idx := BitVec.ofNat 16 nnn.toNat, pc := s.pc + 2 }

/-- FX1E and FX29 (42_index_memory.md, D2, D6, D7, D31): FX1E wraps I at 16 bits and VF tells whether the unwrapped
sum exceeds 0xFFF; FX29 sets I = V[X] × 5 for every value of V[X]. -/
def Obligations.IndexArithmetic : Prop :=
  ∀ (x : Reg) (s : State),
    exec (.addIVx x) s = .next { s with
      idx := BitVec.ofNat 16 ((s.idx.toNat + s.v[x].toNat) % 65536),
      v := s.v.set 15 (if s.idx.toNat + s.v[x].toNat > 0xFFF then 1 else 0),
      pc := s.pc + 2 } ∧
    ∃ t, exec (.ldFVx x) s = .next t ∧ t.idx.toNat = s.v[x].toNat * 5 ∧ t = { s with idx := t.idx, pc := s.pc + 2 }

/-- FX33 (42_index_memory.md, D6) in range: three decimal digits of V[X] at I, I+1, I+2, every other byte as before,
I kept. -/
def Obligations.BcdDigitsStored : Prop :=
  ∀ (x : Reg) (s : State), s.idx.toNat + 2 ≤ 0xFFF → ∃ t,
    exec (.ldBVx x) s = .next t ∧
    (t.byteAt s.idx.toNat).toNat ≤ 2 ∧ (t.byteAt (s.idx.toNat + 1)).toNat ≤ 9 ∧
    (t.byteAt (s.idx.toNat + 2)).toNat ≤ 9 ∧
    (t.byteAt s.idx.toNat).toNat * 100 + (t.byteAt (s.idx.toNat + 1)).toNat * 10 +
      (t.byteAt (s.idx.toNat + 2)).toNat = s.v[x].toNat ∧
    (∀ a, ¬ (s.idx.toNat ≤ a ∧ a ≤ s.idx.toNat + 2) → t.byteAt a = s.byteAt a) ∧
    t = { s with mem := t.mem, pc := s.pc + 2 }

/-- FX55 (42_index_memory.md, D6) in range: V0..VX at I..I+X, every other byte as before, I advanced by X + 1. -/
def Obligations.RegisterDump : Prop :=
  ∀ (x : Reg) (s : State), s.idx.toNat + x.val ≤ 0xFFF → ∃ t,
    exec (.ldMemVx x) s = .next t ∧
    (∀ k : Reg, k ≤ x → t.byteAt (s.idx.toNat + k.val) = s.v[k]) ∧
    (∀ a, ¬ (s.idx.toNat ≤ a ∧ a ≤ s.idx.toNat + x.val) → t.byteAt a = s.byteAt a) ∧
    t = { s with mem := t.mem, idx := BitVec.ofNat 16 (s.idx.toNat + x.val + 1), pc := s.pc + 2 }

/-- FX65 (42_index_memory.md, D4, D6) in range: V0..VX from I..I+X, the other registers, I and memory kept. -/
def Obligations.RegisterLoad : Prop :=
  ∀ (x : Reg) (s : State), s.idx.toNat + x.val ≤ 0xFFF → ∃ t,
    exec (.ldVxMem x) s = .next t ∧
    (∀ k : Reg, k ≤ x → t.v[k] = s.byteAt (s.idx.toNat + k.val)) ∧
    (∀ k : Reg, x < k → t.v[k] = s.v[k]) ∧
    t = { s with v := t.v, pc := s.pc + 2 }

/-- What a dump stores a load brings back (42_index_memory.md, D6): after an FX55, an FX65 with the same X in any state
w with the memory and parameters the dump left and I back where the dump began, whatever w's registers hold, completes
with V0..VX as they were at the dump; w's other registers and the memory stay. -/
def Obligations.DumpThenLoadRestoresRegisters : Prop :=
  ∀ (x : Reg) (s t w : State), s.idx.toNat + x.val ≤ 0xFFF → exec (.ldMemVx x) s = .next t →
    w.mem = t.mem → w.cfg = t.cfg → w.idx = s.idx → ∃ u,
      exec (.ldVxMem x) w = .next u ∧ (∀ k : Reg, k ≤ x → u.v[k] = s.v[k]) ∧ (∀ k : Reg, x < k → u.v[k] = w.v[k]) ∧
      u.mem = t.mem

/-- The bounds faults (20_memory.md section 3, D4, D6, D17): FX33, FX55, FX65 and DXYN fault exactly when an address
they touch exceeds 0xFFF, with the lowest such address as info, and nothing but status and record changes; N = 0 never
faults (D14). The opcode is the instruction's own word (log entry 6). -/
def Obligations.MemoryBoundsFaults : Prop :=
  ∀ (i : Instr) (kind : FaultKind) (count : Nat) (s : State),
    ((∃ x, i = .ldBVx x ∧ kind = .memWriteOutOfRange ∧ count = 3) ∨
     (∃ x, i = .ldMemVx x ∧ kind = .memWriteOutOfRange ∧ count = x.val + 1) ∨
     (∃ x, i = .ldVxMem x ∧ kind = .memReadOutOfRange ∧ count = x.val + 1) ∨
     (∃ x y n, i = .drw x y n ∧ kind = .memReadOutOfRange ∧ count = n.val)) →
    (∀ k < count, s.idx.toNat + k > 0xFFF → (∀ j < k, s.idx.toNat + j ≤ 0xFFF) →
      exec i s = .next (Sys2Proof.Spec.faulted s kind (encode i) (BitVec.ofNat 16 (s.idx.toNat + k)))) ∧
    ((∀ k < count, s.idx.toNat + k ≤ 0xFFF) → ∃ t, exec i s = .next t ∧ t.status = s.status ∧ t.fault = s.fault)

/-- A store is seen by the next fetch (20_memory.md section 8, D39): after an FX55 whose bytes cover pc + 2 and
pc + 3, the next fetch gives the two registers stored there, the lower address in the high byte. -/
def Obligations.StoredCodeIsFetched : Prop :=
  ∀ (x : Reg) (s t : State) (k : Nat) (h : k + 1 ≤ x.val), s.idx.toNat + x.val ≤ 0xFFF → s.pc.toNat ≤ 0xFFE →
    exec (.ldMemVx x) s = .next t → s.pc.toNat + 2 = s.idx.toNat + k →
    t.fetch = .ok (s.v[k]'(by omega) ++ s.v[k + 1]'(by omega))

/-! ## Display -/

/-- 00E0 (43_display.md, D40): every one of the 64 × 32 pixels 0, the draw flag set, pc by 2, nothing else. -/
def Obligations.ClearDisplay : Prop :=
  ∀ s : State, ∃ t, exec .cls s = .next t ∧ (∀ px < 64, ∀ py < 32, t.pixelAt px py = false) ∧
    t = { s with disp := t.disp, drawFlag := true, pc := s.pc + 2 }

/-- DXYN pixel by pixel (43_display.md R701–R703; D4, D13, D14, D15, D40, log entry 9): in range, each of the
64 × 32 pixels is flipped exactly when it lies under a set bit of the sprite, placed with wrap-around; VF is 1 exactly
when such a pixel was set; the other registers, I and memory are kept. -/
def Obligations.DrawFlipsCoveredPixels : Prop :=
  ∀ (x y : Reg) (n : Fin 16) (s : State), (n.val = 0 ∨ s.idx.toNat + n.val ≤ 0x1000) → ∃ t,
    exec (.drw x y n) s = .next t ∧
    (∀ px < 64, ∀ py < 32,
      (s.spriteCovers x y n px py → t.pixelAt px py = !s.pixelAt px py) ∧
      (¬ s.spriteCovers x y n px py → t.pixelAt px py = s.pixelAt px py)) ∧
    ((∃ px < 64, ∃ py < 32, s.spriteCovers x y n px py ∧ s.pixelAt px py = true) → t.v = s.v.set 15 1) ∧
    (¬ (∃ px < 64, ∃ py < 32, s.spriteCovers x y n px py ∧ s.pixelAt px py = true) → t.v = s.v.set 15 0) ∧
    t = { s with disp := t.disp, v := t.v, drawFlag := true, pc := s.pc + 2 }

/-- The same sprite drawn twice at the same coordinates restores the display, and the second draw reports a collision
exactly when a pixel under a set bit of the sprite was clear before the first (43_display.md section 3; D4, D13, D15).
R705 [derived] says "exactly when the sprite has at least one set bit", which R701 bears out only where such a pixel
was clear: log entry 11. The second draw may name other registers, as long as they hold the first draw's
coordinates. -/
def Obligations.DrawTwiceRestoresDisplay : Prop :=
  ∀ (x y x' y' : Reg) (n : Fin 16) (s t u : State), (n.val = 0 ∨ s.idx.toNat + n.val ≤ 0x1000) →
    exec (.drw x y n) s = .next t → t.v[x'] = s.v[x] → t.v[y'] = s.v[y] → exec (.drw x' y' n) t = .next u →
    u.disp = s.disp ∧
    (u.v[15] = 1 ↔ ∃ px < 64, ∃ py < 32, s.spriteCovers x y n px py ∧ s.pixelAt px py = false)

/-- Only 00E0 and DXYN touch the display and set the draw flag, and no instruction clears it (10_state.md section 7,
D40). -/
def Obligations.DisplayChangesOnlyByClearAndDraw : Prop :=
  ∀ (i : Instr) (s t : State), exec i s = .next t →
    (t.disp ≠ s.disp → (i = .cls ∧ ∀ j < 2048, Display.pixel t.disp j = false) ∨ ∃ x y n, i = .drw x y n) ∧
    (t.drawFlag ≠ s.drawFlag → t.drawFlag = true ∧ (i = .cls ∨ ∃ x y n, i = .drw x y n)) ∧
    (t.drawFlag = false → t.disp = s.disp)

/-! ## Keys and timers -/

/-- EX9E and EXA1 (44_keys_timers.md, D9, D17, D34): with a key index in range the skip; with V[X] above 0xF the fault
entry with V[X] as info and the instruction's own word (log entry 6). -/
def Obligations.SkipOnKey : Prop :=
  ∀ (x : Reg) (s : State),
    (∀ h : s.v[x].toNat < 16,
      exec (.skp x) s = .next { s with pc := s.pc + if s.keys[s.v[x].toNat] = true then 4 else 2 } ∧
      exec (.sknp x) s = .next { s with pc := s.pc + if s.keys[s.v[x].toNat] = true then 2 else 4 }) ∧
    (16 ≤ s.v[x].toNat →
      exec (.skp x) s = .next (Sys2Proof.Spec.faulted s .keyIndexOutOfRange (0xE#4 ++ Sys2Proof.Spec.nib x ++ 0x9E#8)
        (BitVec.ofNat 16 s.v[x].toNat)) ∧
      exec (.sknp x) s = .next (Sys2Proof.Spec.faulted s .keyIndexOutOfRange (0xE#4 ++ Sys2Proof.Spec.nib x ++ 0xA1#8)
        (BitVec.ofNat 16 s.v[x].toNat)))

/-- FX0A with a key pressed (44_keys_timers.md, D10): the lowest pressed index goes to V[X]. -/
def Obligations.KeyWaitTakesLowestKey : Prop :=
  ∀ (x : Reg) (k : Fin 16) (s : State), s.keys[k] = true → (∀ j : Fin 16, j < k → s.keys[j] = false) →
    exec (.ldVxK x) s = .next { s with v := s.v.set x (BitVec.ofNat 8 k.val), pc := s.pc + 2 }

/-- FX0A with no key pressed (44_keys_timers.md, D11): a whole step changes nothing, whatever the parameters, timers
included. -/
def Obligations.KeyWaitChangesNothing : Prop :=
  ∀ (x : Reg) (s : State), s.status = .running → s.pc.toNat ≤ 0xFFE →
    decode (s.byteAt s.pc.toNat ++ s.byteAt (s.pc.toNat + 1)) = .ok (.ldVxK x) →
    (∀ k : Fin 16, s.keys[k] = false) → step s = .next s

/-- FX07, FX15 and FX18 (44_keys_timers.md): the timers as bytes, read and written. -/
def Obligations.TimerInstructions : Prop :=
  ∀ (x : Reg) (s : State),
    exec (.ldVxDt x) s = .next { s with v := s.v.set x s.dt, pc := s.pc + 2 } ∧
    exec (.ldDtVx x) s = .next { s with dt := s.v[x], pc := s.pc + 2 } ∧
    exec (.ldStVx x) s = .next { s with st := s.v[x], pc := s.pc + 2 }

/-- "No instruction reads ST" (10_state.md section 5): whatever ST holds, exec answers the same state up to ST, for the
same draw where the instruction is CXNN (the two runs compared share the draw counter: the model's choice, log
entry 4); and only FX18 changes ST, only FX15 changes DT. -/
def Obligations.SoundTimerIsNeverRead : Prop :=
  (∀ (i : Instr) (s : State) (b : Byte),
    Result.map (State.setSt 0) (exec i (s.setSt b)) = Result.map (State.setSt 0) (exec i s)) ∧
  (∀ (i : Instr) (s t : State), exec i s = .next t →
    (t.st ≠ s.st → ∃ x, i = .ldStVx x) ∧ (t.dt ≠ s.dt → ∃ x, i = .ldDtVx x))

/-! ## Encoding -/

/-- Every instruction's word decodes to it, with every operand at every value. -/
def Obligations.DecodeOfEncode : Prop := ∀ i : Instr, decode (encode i) = .ok i

/-- Each word has one meaning: a word that decodes is the word of its instruction, so no bit of it is dropped. -/
def Obligations.EncodeOfDecode : Prop := ∀ (op : Word) (i : Instr), decode op = .ok i → encode i = op

/-- The illegal words are those of 30_encoding.md section 3 (D16), and a step of a running block on one takes the
`UnknownOpcode` entry with the word as opcode and info. -/
def Obligations.IllegalWordsFault : Prop :=
  (∀ op : Word, decode op = .error (.unknownOpcode op) ↔
    (op.toNat < 0x1000 ∧ op.toNat ≠ 0x00E0 ∧ op.toNat ≠ 0x00EE) ∨
    (op.toNat / 0x1000 = 0x5 ∧ op.toNat % 16 ≠ 0) ∨
    (op.toNat / 0x1000 = 0x8 ∧ op.toNat % 16 ∈ [0x8, 0x9, 0xA, 0xB, 0xC, 0xD, 0xF]) ∨
    (op.toNat / 0x1000 = 0x9 ∧ op.toNat % 16 ≠ 0) ∨
    (op.toNat / 0x1000 = 0xE ∧ op.toNat % 256 ∉ [0x9E, 0xA1]) ∨
    (op.toNat / 0x1000 = 0xF ∧ op.toNat % 256 ∉ [0x07, 0x0A, 0x15, 0x18, 0x1E, 0x29, 0x33, 0x55, 0x65])) ∧
  (∀ (s : State) (op : Word), s.status = .running → s.pc.toNat ≤ 0xFFE →
    s.byteAt s.pc.toNat ++ s.byteAt (s.pc.toNat + 1) = op → decode op = .error (.unknownOpcode op) →
    step s = .next (Sys2Proof.Spec.faulted s .unknownOpcode op op))

/-- A few words written from the bit patterns of 30_encoding.md R303 and R310, and the instructions they stand for. -/
def Obligations.WrittenWordsDecode : Prop :=
  decode 0b0001001000110100 = .ok (.jp 0x234) ∧ decode 0b1000101010110100 = .ok (.addReg 0xA 0xB) ∧
  decode 0b1111010101010101 = .ok (.ldMemVx 5) ∧ decode 0b1101000100100101 = .ok (.drw 1 2 5) ∧
  decode 0b1110001010011110 = .ok (.skp 2) ∧ decode 0b1111001100001010 = .ok (.ldVxK 3)

/-! ## The step -/

/-- A step runs the decoded instruction (30_encoding.md section 5): when the two bytes at pc, the first in the high
half, decode to i and i answers t, the step answers t, with the timer decrement on top exactly when
`STEP_DECREMENTS_TIMERS` is on and the instruction committed (D3, D11). -/
def Obligations.StepRunsDecodedInstruction : Prop :=
  ∀ (i : Instr) (s t : State), s.status = .running → s.pc.toNat ≤ 0xFFE →
    decode (s.byteAt s.pc.toNat ++ s.byteAt (s.pc.toNat + 1)) = .ok i → exec i s = .next t →
    step s = .next
      (if s.cfg.stepDecrementsTimers = true ∧ t.status ≠ .faulted ∧
          ¬ ((∃ x, i = .ldVxK x) ∧ ∀ k : Fin 16, s.keys[k] = false)
        then Sys2Proof.Spec.decremented t else t)

/-- Fetch beyond memory (60_exceptions.md section 1, D5): a step with pc ≥ 0xFFF takes `FetchOutOfRange` with info pc
and opcode 0. -/
def Obligations.FetchBeyondMemoryFaults : Prop :=
  ∀ s : State, s.status = .running → 0xFFF ≤ s.pc.toNat →
    step s = .next (Sys2Proof.Spec.faulted s .fetchOutOfRange 0 s.pc)

/-- Every step answers a next state: nothing in this hardware stops the machine without one (log entry 1). Halted and
Faulted are terminal: a step there changes nothing (60_exceptions.md section 3, D19). -/
def Obligations.StepAlwaysAnswersNext : Prop :=
  ∀ s : State, (∃ t, step s = .next t) ∧ (s.status ≠ .running → step s = .next s)

/-- A fault is precise (60_exceptions.md section 1, D17; log entry 6): a running block that a step leaves Faulted has
only its status and record changed; the record holds a fault kind, the pc, and the fetched word (0 if fetch faulted). -/
def Obligations.FaultIsPrecise : Prop :=
  ∀ s t : State, s.status = .running → step s = .next t → t.status = .faulted →
    t = Sys2Proof.Spec.faulted s t.fault.kind t.fault.opcode t.fault.info ∧ t.fault.kind ≠ .noFault ∧
    (s.pc.toNat ≤ 0xFFE → t.fault.opcode = s.byteAt s.pc.toNat ++ s.byteAt (s.pc.toNat + 1)) ∧
    (0xFFF ≤ s.pc.toNat → t.fault.opcode = 0)

/-- The instructions that can fault, and with which kind (60_exceptions.md section 1, D38): no other instruction ever
leaves a block Faulted that was not. -/
def Obligations.OnlyListedInstructionsFault : Prop :=
  ∀ (i : Instr) (s t : State), s.status ≠ .faulted → exec i s = .next t → t.status = .faulted →
    (i = .ret ∧ t.fault.kind = .stackUnderflow ∧ s.sp.val = 0) ∨
    ((∃ nnn, i = .call nnn) ∧ t.fault.kind = .stackOverflow ∧ s.sp.val = 16) ∨
    ((∃ x, i = .ldBVx x ∨ i = .ldMemVx x) ∧ t.fault.kind = .memWriteOutOfRange) ∨
    (((∃ x, i = .ldVxMem x) ∨ ∃ x y n, i = .drw x y n) ∧ t.fault.kind = .memReadOutOfRange) ∨
    ((∃ x, (i = .skp x ∨ i = .sknp x) ∧ 16 ≤ s.v[x].toNat) ∧ t.fault.kind = .keyIndexOutOfRange)

/-- Only a self-jump halts (60_exceptions.md sections 3 and 4, D29): a running block that a step leaves Halted had a
1NNN with NNN = pc at pc, and pc stays there. -/
def Obligations.OnlySelfJumpHalts : Prop :=
  ∀ s t : State, s.status = .running → step s = .next t → t.status = .halted →
    t.pc = s.pc ∧ s.pc.toNat ≤ 0xFFE ∧ ∃ nnn : Imm12,
      s.byteAt s.pc.toNat ++ s.byteAt (s.pc.toNat + 1) = 0x1#4 ++ nnn ∧ nnn.toNat = s.pc.toNat

/-! ## Whole-machine rules -/

/-- The invariant holds right after reset, for every choice of the parameters. Its clause on canonical memory is about
the model's own form of memory (log entry 12, the model's choice). -/
def Obligations.InvariantAtReset : Prop := State.reset.Inv ∧ ∀ (cfg : Config) (n : Nat), (State.initial cfg n).Inv

/-- Every step keeps the invariant: canonical memory (the model's own form: log entry 12, the model's choice), pc at
most 0x10FE, return addresses at most 0x1000, and a fault record exactly in status Faulted. -/
def Obligations.StepKeepsInvariant : Prop := ∀ s t : State, s.Inv → step s = .next t → t.Inv

/-- Every block that operations reach, loads and key changes among them, in any order, meets the invariant once it is
initialised: canonical memory (the model's own form: log entry 12, the model's choice), the ranges of pc and of the
return addresses (10_state.md section 3, 40_control_flow.md), and a fault record exactly in status Faulted
(60_exceptions.md section 1, D17). -/
def Obligations.ReachableBlocksMeetInvariant : Prop := ∀ s : State, Reachable (.ready s) → s.Inv

/-- The canonical form, the model's own (log entry 12), makes equal memories equal data: two states with the same font
and canonical memories that read alike at every address have the same memory. -/
def Obligations.CanonicalMemoryIsUnique : Prop :=
  ∀ s t : State, s.cfg.font = t.cfg.font → Memory.wf s.cfg.font s.mem → Memory.wf t.cfg.font t.mem →
    (∀ a < 0x1000, s.byteAt a = t.byteAt a) → s.mem = t.mem

/-- The stack (10_state.md section 4): push writes slot sp and then increments sp, pop decrements it and then reads; sp
ranges over 0–16; only 2NNN pushes and only 00EE pops, so no store to memory reaches the stack. What is pushed and
where the popped value goes is 40_control_flow.md; that a 2NNN at sp = 16 and an 00EE at sp = 0 leave the stack and sp
alone is D8 (log entry 13). -/
def Obligations.StackChangesOnlyByCallAndReturn : Prop :=
  ∀ (i : Instr) (s t : State), exec i s = .next t →
    t.sp.val ≤ 16 ∧
    (∀ nnn, i = .call nnn → ∀ h : s.sp.val < 16,
      t.stack = s.stack.set s.sp.val (s.pc + 2) ∧ t.sp.val = s.sp.val + 1) ∧
    (i = .ret → ∀ h : 0 < s.sp.val,
      t.stack = s.stack ∧ t.sp.val = s.sp.val - 1 ∧ t.pc = s.stack[s.sp.val - 1]'(by omega)) ∧
    (t.stack ≠ s.stack ∨ t.sp ≠ s.sp →
      (s.sp.val < 16 ∧ ∃ nnn, i = .call nnn) ∨ (0 < s.sp.val ∧ i = .ret))

/-- R101: VF changes only by an instruction that writes it as a flag, or one whose destination it is; as a flag it
ends 0 or 1 unless it is also the destination. -/
def Obligations.FlagRegisterWriters : Prop :=
  ∀ (i : Instr) (s t : State), exec i s = .next t → t.v[15] ≠ s.v[15] →
    (i.writesFlag = true ∧ (i.hasDest 15 = false → t.v[15] = 0 ∨ t.v[15] = 1)) ∨ i.hasDest 15 = true

/-- The write column of 10_state.md section 1 (the table of register accesses): a register that is neither a
destination nor a written flag keeps its value. -/
def Obligations.RegistersChangeOnlyAsListed : Prop :=
  ∀ (i : Instr) (s t : State) (r : Reg), exec i s = .next t → i.hasDest r = false →
    (i.writesFlag = false ∨ r ≠ 15) → t.v[r] = s.v[r]

/-- The read column of 10_state.md section 1 (D30 for the shifts' Y): whatever a register holds that the instruction
does not read, exec answers the same state up to that register, for the same draw where the instruction is CXNN (the
two runs compared share the draw counter: the model's choice, log entry 4). -/
def Obligations.UnreadRegisterDoesNotMatter : Prop :=
  ∀ (i : Instr) (s : State) (r : Reg) (b : Byte), i.readsReg r = false →
    Result.map (State.setReg r 0) (exec i (s.setReg r b)) = Result.map (State.setReg r 0) (exec i s)

/-- Only FX33 and FX55 change memory, and only at I..I+2 and I..I+X, all of it below 0x1000 (20_memory.md
sections 1 and 3, D6, D21). -/
def Obligations.MemoryChangesOnlyByStores : Prop :=
  ∀ (i : Instr) (s t : State) (a : Nat), exec i s = .next t → t.byteAt a ≠ s.byteAt a →
    a < 0x1000 ∧ s.idx.toNat ≤ a ∧
    ((∃ x, i = .ldBVx x ∧ a ≤ s.idx.toNat + 2) ∨ ∃ x : Reg, i = .ldMemVx x ∧ a ≤ s.idx.toNat + x.val)

/-- Steps leave the keys and the parameters alone (10_state.md section 6, D34; 00_scope.md section 4). -/
def Obligations.StepKeepsKeysAndParameters : Prop :=
  ∀ s t : State, step s = .next t → t.keys = s.keys ∧ t.cfg = s.cfg

/-! ## Host operations -/

/-- R924: a tick decrements each timer that is nonzero, whatever the other holds, gives back whether ST was 1, and
changes nothing else; the per-step decrement of a committing step is the same function. -/
def Obligations.TickDecrementsBothTimers : Prop :=
  (∀ s : State, s.applyOp .tickTimers =
    .next ({ s with dt := if s.dt ≠ 0 then s.dt - 1 else 0, st := if s.st ≠ 0 then s.st - 1 else 0 },
      .beep (s.st = 1))) ∧
  (∀ (i : Instr) (s t : State), s.cfg.stepDecrementsTimers = true → committed i s t = true →
    (t.applyOp .tickTimers = .next ((finishStep i s t).1, .beep (finishStep i s t).2)))

/-- n ticks in a row (60_exceptions.md section 5): each timer is down by n and never below 0, and the k-th tick (from 0)
beeps exactly when ST was k + 1, so at most once. -/
def Obligations.ManyTicksCountDown : Prop :=
  ∀ (n : Nat) (s : State), runOps (List.replicate n .tickTimers) (.ready s) =
    .next (.ready { s with dt := BitVec.ofNat 8 (s.dt.toNat - n), st := BitVec.ofNat 8 (s.st.toNat - n) },
      (List.range n).map fun k => .beep (s.st.toNat = k + 1))

/-- A tick commutes with every instruction that neither reads DT nor writes a timer (20_memory.md section 7), for the
same draw where the instruction is CXNN (both orders share the draw counter: the model's choice, log entry 4). -/
def Obligations.TickCommutesWithOtherInstructions : Prop :=
  ∀ (i : Instr) (s : State), (∀ x, i ≠ .ldVxDt x ∧ i ≠ .ldDtVx x ∧ i ≠ .ldStVx x) →
    exec i s.timerDecrement.1 = Result.map (fun t => t.timerDecrement.1) (exec i s)

/-- The beep of a step (60_exceptions.md section 5, D24): where the step runs an instruction, exactly when
`STEP_DECREMENTS_TIMERS` is on, the instruction commits, and ST is 1 after the instruction's own writes; a step that
finds the block stopped, or whose fetch or decode faults, never beeps. -/
def Obligations.StepBeepsOnLastDecrement : Prop :=
  ∀ (s u : State) (r : StepResult) (beep : Bool), s.applyOp .step = .next (u, .stepped r beep) →
    (∀ (i : Instr) (t : State), s.work = .runs i → exec i s = .next t →
      (beep = true ↔ s.cfg.stepDecrementsTimers = true ∧ committed i s t = true ∧ t.st = 1)) ∧
    ((s.work = .idle ∨ ∃ f op, s.work = .raises f op) → beep = false)

/-- R337: the step result names the status the step leaves, and the operation's state is that of `step`. -/
def Obligations.StepResultNamesStatus : Prop :=
  ∀ s : State, ∃ (t : State) (r : StepResult) (beep : Bool),
    s.applyOp .step = .next (t, .stepped r beep) ∧ step s = .next t ∧
    (r = .continue ↔ t.status = .running) ∧ (r = .halted ↔ t.status = .halted) ∧
    (r = .faulted ↔ t.status = .faulted)

/-- `load_program` (70_reset_and_hazards.md section 2, D23): up to 3584 bytes go to 0x200 + i and nothing else changes;
a longer image changes nothing. -/
def Obligations.LoadProgramCopiesImage : Prop :=
  ∀ (s : State) (bytes : List Byte),
    (bytes.length ≤ 3584 → ∃ t,
      s.applyOp (.loadProgram bytes) = .next (t, .byteCount bytes.length) ∧
      (∀ k (h : k < bytes.length), t.byteAt (0x200 + k) = bytes[k]) ∧
      (∀ a, ¬ (0x200 ≤ a ∧ a < 0x200 + bytes.length) → t.byteAt a = s.byteAt a) ∧
      t = { s with mem := t.mem }) ∧
    (3584 < bytes.length → s.applyOp (.loadProgram bytes) = .next (s, .imageTooLarge))

/-- R1001: `initialize` from any state sets every field of the reset table and memory to `FONT` and 0x00. (The
parameters and the draw counter are the model's own fields, log entries 2 and 4, and no clause speaks of them.) -/
def Obligations.InitializeSetsEveryField : Prop :=
  ∀ s : State, ∃ t, s.applyOp .initializeBlock = .next (t, .nothing) ∧
    (∀ r : Reg, t.v[r] = 0) ∧ t.idx = 0 ∧ t.pc = 0x200 ∧ (∀ j : Fin 16, t.stack[j] = 0) ∧ t.sp = 0 ∧
    t.dt = 0 ∧ t.st = 0 ∧ (∀ k : Fin 16, t.keys[k] = false) ∧ (∀ j < 2048, Display.pixel t.disp j = false) ∧
    t.drawFlag = false ∧ t.status = .running ∧ t.fault = ⟨.noFault, 0, 0, 0⟩ ∧
    (∀ (g : Fin 16) (k : Fin 5), t.byteAt (5 * g.val + k.val) = s.cfg.font[g][k]) ∧
    (∀ a, 0x50 ≤ a → a ≤ 0xFFF → t.byteAt a = 0)

/-- `consume_draw_flag` (60_exceptions.md section 6; when the flag is set is D40) gives the flag and clears it, and
changes nothing else; so a second one gives false. -/
def Obligations.ConsumeDrawFlagClears : Prop :=
  ∀ s : State, s.applyOp .consumeDrawFlag = .next ({ s with drawFlag := false }, .flag s.drawFlag) ∧
    runOps [.consumeDrawFlag, .consumeDrawFlag] (.ready s) =
      .next (.ready { s with drawFlag := false }, [.flag s.drawFlag, .flag false])

/-- The key state is replaced as a whole, and the host's reads change nothing and give the status, the record, whether
the block stopped and the 2048 pixels as 0 or 1 (60_exceptions.md section 6; D17, D18, D34). -/
def Obligations.KeysAreSetAndReadsAreFree : Prop :=
  ∀ (s : State) (keys : Vector Bool 16),
    s.applyOp (.setKeys keys) = .next ({ s with keys := keys }, .nothing) ∧
    s.applyOp .hasHalted = .next (s, .flag (s.status ≠ .running)) ∧
    s.applyOp .readStatus = .next (s, .status s.status) ∧
    s.applyOp .readFault = .next (s, .faultRecord s.fault) ∧
    ∃ d : List Byte, s.applyOp .readDisplay = .next (s, .display d) ∧ d.length = 2048 ∧
      ∀ px < 64, ∀ py < 32, d[py * 64 + px]? = some (if s.pixelAt px py = true then 1 else 0)

/-- Before the first `initialize` every other operation is refused, and `initialize` gives a ready block
(70_reset_and_hazards.md section 3, D28; log entry 5). -/
def Obligations.UninitialisedBlockRefuses : Prop :=
  ∀ (cfg : Config) (op : HostOp),
    (op ≠ .initializeBlock → applyOp (.uninitialised cfg) op = .refused .notInitialised) ∧
    applyOp (.uninitialised cfg) .initializeBlock = .next (.ready (State.initial cfg 0), .nothing)

/-- "The second draw sets VF = 1 exactly when the sprite has at least one set bit" (43_display.md section 3; D4, D13,
D14, D15), wherever R701 bears it out: when the first of two equal draws reported no collision, the second gives VF = 1
exactly when one of the sprite's N bytes has a set bit. After a first draw that collided, DrawTwiceRestoresDisplay says
what R701 gives (log entry 11). -/
def Obligations.SecondDrawReportsSetBitAfterCleanFirst : Prop :=
  ∀ (x y x' y' : Reg) (n : Fin 16) (s t u : State), (n.val = 0 ∨ s.idx.toNat + n.val ≤ 0x1000) →
    exec (.drw x y n) s = .next t → t.v[15] = 0 → t.v[x'] = s.v[x] → t.v[y'] = s.v[y] →
    exec (.drw x' y' n) t = .next u →
    (u.v[15] = 1 ↔ ∃ r < n.val, ∃ c < 8, (s.byteAt (s.idx.toNat + r)).getLsbD c = true)
end

