-- ==== Sys2Proof/Laws/Encoding.lean ====
section
/-!
SUPPORT. The bit-field lemmas of the encoding: the nibbles of a word made of fields, and the fields made of nibbles.
-/

namespace Sys2Proof

/-- Every instruction's operands fit their fields, by their types (WellFormed.lean). -/
theorem Instr.wf_all (i : Instr) : i.wf = true := by
  have h8 (b : Byte) : b.toNat < 256 := b.isLt
  have h12 (b : Imm12) : b.toNat < 4096 := b.isLt
  have h4 (x : Fin 16) : x.val < 16 := x.isLt
  cases i <;> simp [Instr.wf, Instr.operands, Operand.wf, h8, h12, h4]

theorem opClass_ofNibbles (c x y n : BitVec 4) : opClass (ofNibbles c x y n) = c := by
  unfold opClass ofNibbles
  ext i hi
  simp only [BitVec.getElem_extractLsb', BitVec.getLsbD_append]
  rw [if_neg (by omega), if_neg (by omega), if_neg (by omega)]
  simp [show 12 + i - 4 - 4 - 4 = i by omega, hi]

theorem opX_ofNibbles (c x y n : BitVec 4) : opX (ofNibbles c x y n) = x := by
  unfold opX ofNibbles
  ext i hi
  simp only [BitVec.getElem_extractLsb', BitVec.getLsbD_append]
  rw [if_neg (by omega), if_neg (by omega), if_pos (by omega)]
  simp [show 8 + i - 4 - 4 = i by omega, hi]

theorem opY_ofNibbles (c x y n : BitVec 4) : opY (ofNibbles c x y n) = y := by
  unfold opY ofNibbles
  ext i hi
  simp only [BitVec.getElem_extractLsb', BitVec.getLsbD_append]
  rw [if_neg (by omega), if_pos (by omega)]
  simp [show 4 + i - 4 = i by omega, hi]

theorem opN_ofNibbles (c x y n : BitVec 4) : opN (ofNibbles c x y n) = n := by
  unfold opN ofNibbles
  ext i hi
  simp only [BitVec.getElem_extractLsb', BitVec.getLsbD_append]
  rw [if_pos (by omega)]
  simp [hi]

/-- Every word is the word of its four nibbles. -/
theorem ofNibbles_nibbles (op : Word) : ofNibbles (opClass op) (opX op) (opY op) (opN op) = op := by
  unfold ofNibbles opClass opX opY opN
  ext i hi
  simp only [BitVec.getElem_append, BitVec.getElem_extractLsb']
  split
  · simp [BitVec.getLsbD_eq_getElem hi]
  · split
    · simp [show 4 + (i - 4) = i by omega, BitVec.getLsbD_eq_getElem hi]
    · split
      · simp [show 8 + (i - 4 - 4) = i by omega, BitVec.getLsbD_eq_getElem hi]
      · simp [show 12 + (i - 4 - 4 - 4) = i by omega, BitVec.getLsbD_eq_getElem hi]

@[simp] theorem byteOf_nibbles (b : Byte) : byteOf (hiNibble b) (loNibble b) = b := by
  unfold byteOf hiNibble loNibble
  ext i hi
  simp only [BitVec.getElem_append, BitVec.getElem_extractLsb']
  split
  · simp [BitVec.getLsbD_eq_getElem hi]
  · simp [show 4 + (i - 4) = i by omega, BitVec.getLsbD_eq_getElem hi]

@[simp] theorem regOf_nibbleOf (x : Fin 16) : regOf (nibbleOf x) = x := rfl

@[simp] theorem nibbleOf_regOf (b : BitVec 4) : nibbleOf (regOf b) = b := rfl

/-- Format `xnn` as a word of four nibbles. -/
theorem encXnn_nibbles (c : BitVec 4) (x : Reg) (nn : Byte) :
    encXnn c x nn = ofNibbles c (nibbleOf x) (hiNibble nn) (loNibble nn) := by
  unfold encXnn ofNibbles hiNibble loNibble
  ext i hi
  simp only [BitVec.getElem_append, BitVec.getElem_extractLsb']
  by_cases h1 : i < 4
  · simp [h1, show i < 8 by omega, BitVec.getLsbD_eq_getElem]
  · by_cases h2 : i < 8
    · simp [h1, h2, show i - 4 < 4 by omega, show 4 + (i - 4) = i by omega, BitVec.getLsbD_eq_getElem]
    · by_cases h3 : i < 12
      · simp [h1, h2, show ¬ i - 4 < 4 by omega, show i - 8 < 4 by omega, show i - 4 - 4 = i - 8 by omega]
      · simp [h1, h2, show ¬ i - 4 < 4 by omega, show ¬ i - 8 < 4 by omega, show ¬ i - 4 - 4 < 4 by omega,
          show i - 4 - 4 - 4 = i - 8 - 4 by omega]

/-- Format `nnn` as a word of four nibbles. -/
theorem encNnn_nibbles (c : BitVec 4) (nnn : Imm12) :
    encNnn c nnn = ofNibbles c (nnn.extractLsb' 8 4) (nnn.extractLsb' 4 4) (nnn.extractLsb' 0 4) := by
  unfold encNnn ofNibbles
  ext i hi
  simp only [BitVec.getElem_append, BitVec.getElem_extractLsb']
  by_cases h1 : i < 4
  · simp [h1, show i < 12 by omega, BitVec.getLsbD_eq_getElem]
  · by_cases h2 : i < 8
    · simp [h1, show i < 12 by omega, show i - 4 < 4 by omega, show 4 + (i - 4) = i by omega, BitVec.getLsbD_eq_getElem]
    · by_cases h3 : i < 12
      · simp [h1, h3, show ¬ i - 4 < 4 by omega, show i - 4 - 4 < 4 by omega, show 8 + (i - 4 - 4) = i by omega,
          BitVec.getLsbD_eq_getElem]
      · simp [h1, h3, show ¬ i - 4 < 4 by omega, show ¬ i - 4 - 4 < 4 by omega,
          show i - 4 - 4 - 4 = i - 12 by omega]

@[simp] theorem imm12Of_nibbles (nnn : Imm12) :
    imm12Of (nnn.extractLsb' 8 4) (nnn.extractLsb' 4 4) (nnn.extractLsb' 0 4) = nnn := by
  unfold imm12Of
  ext i hi
  simp only [BitVec.getElem_append, BitVec.getElem_extractLsb']
  by_cases h1 : i < 4
  · simp [h1, BitVec.getLsbD_eq_getElem hi]
  · by_cases h2 : i < 8
    · simp [h1, show i - 4 < 4 by omega, show 4 + (i - 4) = i by omega, BitVec.getLsbD_eq_getElem hi]
    · simp [h1, show ¬ i - 4 < 4 by omega, show 8 + (i - 4 - 4) = i by omega, BitVec.getLsbD_eq_getElem hi]

/-! The fields of a word of each format: class, X, Y, N, NN and NNN read back what was put in (30_encoding.md R301). -/

theorem opClass_encNnn (c : BitVec 4) (nnn : Imm12) : opClass (encNnn c nnn) = c := by
  simp [encNnn_nibbles, opClass_ofNibbles]

theorem nnn_encNnn (c : BitVec 4) (nnn : Imm12) :
    imm12Of (opX (encNnn c nnn)) (opY (encNnn c nnn)) (opN (encNnn c nnn)) = nnn := by
  simp [encNnn_nibbles, opX_ofNibbles, opY_ofNibbles, opN_ofNibbles]

theorem opClass_encXnn (c : BitVec 4) (x : Reg) (nn : Byte) : opClass (encXnn c x nn) = c := by
  simp [encXnn_nibbles, opClass_ofNibbles]

theorem opX_encXnn (c : BitVec 4) (x : Reg) (nn : Byte) : opX (encXnn c x nn) = nibbleOf x := by
  simp [encXnn_nibbles, opX_ofNibbles]

theorem nn_encXnn (c : BitVec 4) (x : Reg) (nn : Byte) :
    byteOf (opY (encXnn c x nn)) (opN (encXnn c x nn)) = nn := by
  simp [encXnn_nibbles, opY_ofNibbles, opN_ofNibbles]

theorem encXy_nibbles (c : BitVec 4) (x y : Reg) (f : BitVec 4) :
    encXy c x y f = ofNibbles c (nibbleOf x) (nibbleOf y) f := rfl

theorem opClass_encXy (c : BitVec 4) (x y : Reg) (f : BitVec 4) : opClass (encXy c x y f) = c := by
  simp [encXy_nibbles, opClass_ofNibbles]

theorem opX_encXy (c : BitVec 4) (x y : Reg) (f : BitVec 4) : opX (encXy c x y f) = nibbleOf x := by
  simp [encXy_nibbles, opX_ofNibbles]

theorem opY_encXy (c : BitVec 4) (x y : Reg) (f : BitVec 4) : opY (encXy c x y f) = nibbleOf y := by
  simp [encXy_nibbles, opY_ofNibbles]

theorem opN_encXy (c : BitVec 4) (x y : Reg) (f : BitVec 4) : opN (encXy c x y f) = f := by
  simp [encXy_nibbles, opN_ofNibbles]

theorem encXyn_eq (c : BitVec 4) (x y : Reg) (n : Fin 16) : encXyn c x y n = encXy c x y (nibbleOf n) := rfl

theorem encX_eq (c : BitVec 4) (x : Reg) (f : Byte) : encX c x f = encXnn c x f := rfl

/-! The other direction: a word is put together again from its fields. -/

@[simp] theorem hiNibble_byteOf (y n : BitVec 4) : hiNibble (byteOf y n) = y := by
  revert y n; decide

@[simp] theorem loNibble_byteOf (y n : BitVec 4) : loNibble (byteOf y n) = n := by
  revert y n; decide

theorem encXnn_fields (op : Word) : encXnn (opClass op) (regOf (opX op)) (byteOf (opY op) (opN op)) = op := by
  rw [encXnn_nibbles, hiNibble_byteOf, loNibble_byteOf, nibbleOf_regOf, ofNibbles_nibbles]

theorem encXy_fields (op : Word) : encXy (opClass op) (regOf (opX op)) (regOf (opY op)) (opN op) = op := by
  rw [encXy_nibbles, nibbleOf_regOf, nibbleOf_regOf, ofNibbles_nibbles]

theorem encNnn_fields (op : Word) : encNnn (opClass op) (imm12Of (opX op) (opY op) (opN op)) = op := by
  refine Eq.trans ?_ (ofNibbles_nibbles op)
  generalize opClass op = c; generalize opX op = x; generalize opY op = y; generalize opN op = n
  show c ++ (x ++ y ++ n) = c ++ x ++ y ++ n
  apply BitVec.eq_of_toNat_eq
  have hx := x.isLt; have hy := y.isLt; have hn := n.isLt
  simp only [BitVec.toNat_append, Nat.shiftLeft_or_distrib, ← Nat.shiftLeft_add, Nat.or_assoc]

/-- The bytes of a word, put together again, are the word (20_memory.md R215). -/
theorem wordOfBytes_bytesOfWord (op : Word) : wordOfBytes (op.extractLsb' 8 8) (op.extractLsb' 0 8) = op := by
  unfold wordOfBytes
  ext i hi
  simp only [BitVec.getElem_append, BitVec.getElem_extractLsb']
  split
  · simp [BitVec.getLsbD_eq_getElem hi]
  · simp [show 8 + (i - 8) = i by omega, BitVec.getLsbD_eq_getElem hi]

end Sys2Proof
end

