-- ==== Sys2Proof/Laws/State.lean ====
section
/-!
SUPPORT. One lemma per field per update of State, each true by rfl, so that no proof unfolds a record update; for the
updates made of others (storeBytes, setResultFlag, timerDecrement) the same by their own shape.
-/

namespace Sys2Proof.Machine.State

variable (s : State)

@[simp] theorem storeByte_cfg (a : Nat) (b : Byte) : (s.storeByte a b).cfg = s.cfg := rfl
@[simp] theorem storeByte_v (a : Nat) (b : Byte) : (s.storeByte a b).v = s.v := rfl
@[simp] theorem storeByte_idx (a : Nat) (b : Byte) : (s.storeByte a b).idx = s.idx := rfl
@[simp] theorem storeByte_pc (a : Nat) (b : Byte) : (s.storeByte a b).pc = s.pc := rfl
@[simp] theorem storeByte_stack (a : Nat) (b : Byte) : (s.storeByte a b).stack = s.stack := rfl
@[simp] theorem storeByte_sp (a : Nat) (b : Byte) : (s.storeByte a b).sp = s.sp := rfl
@[simp] theorem storeByte_dt (a : Nat) (b : Byte) : (s.storeByte a b).dt = s.dt := rfl
@[simp] theorem storeByte_st (a : Nat) (b : Byte) : (s.storeByte a b).st = s.st := rfl
@[simp] theorem storeByte_keys (a : Nat) (b : Byte) : (s.storeByte a b).keys = s.keys := rfl
@[simp] theorem storeByte_disp (a : Nat) (b : Byte) : (s.storeByte a b).disp = s.disp := rfl
@[simp] theorem storeByte_drawFlag (a : Nat) (b : Byte) : (s.storeByte a b).drawFlag = s.drawFlag := rfl
@[simp] theorem storeByte_status (a : Nat) (b : Byte) : (s.storeByte a b).status = s.status := rfl
@[simp] theorem storeByte_fault (a : Nat) (b : Byte) : (s.storeByte a b).fault = s.fault := rfl
@[simp] theorem storeByte_mem (a : Nat) (b : Byte) : (s.storeByte a b).mem = Memory.write s.cfg.font s.mem a b := rfl
@[simp] theorem storeByte_draws (a : Nat) (b : Byte) : (s.storeByte a b).draws = s.draws := rfl

@[simp] theorem takeFault_cfg (r : Raise) (op : Word) : (s.takeFault r op).cfg = s.cfg := rfl
@[simp] theorem takeFault_v (r : Raise) (op : Word) : (s.takeFault r op).v = s.v := rfl
@[simp] theorem takeFault_idx (r : Raise) (op : Word) : (s.takeFault r op).idx = s.idx := rfl
@[simp] theorem takeFault_pc (r : Raise) (op : Word) : (s.takeFault r op).pc = s.pc := rfl
@[simp] theorem takeFault_stack (r : Raise) (op : Word) : (s.takeFault r op).stack = s.stack := rfl
@[simp] theorem takeFault_sp (r : Raise) (op : Word) : (s.takeFault r op).sp = s.sp := rfl
@[simp] theorem takeFault_dt (r : Raise) (op : Word) : (s.takeFault r op).dt = s.dt := rfl
@[simp] theorem takeFault_st (r : Raise) (op : Word) : (s.takeFault r op).st = s.st := rfl
@[simp] theorem takeFault_keys (r : Raise) (op : Word) : (s.takeFault r op).keys = s.keys := rfl
@[simp] theorem takeFault_disp (r : Raise) (op : Word) : (s.takeFault r op).disp = s.disp := rfl
@[simp] theorem takeFault_drawFlag (r : Raise) (op : Word) : (s.takeFault r op).drawFlag = s.drawFlag := rfl
@[simp] theorem takeFault_status (r : Raise) (op : Word) : (s.takeFault r op).status = .faulted := rfl
@[simp] theorem takeFault_fault (r : Raise) (op : Word) : (s.takeFault r op).fault = ⟨r.kind, s.pc, op, r.info⟩ := rfl
@[simp] theorem takeFault_mem (r : Raise) (op : Word) : (s.takeFault r op).mem = s.mem := rfl
@[simp] theorem takeFault_draws (r : Raise) (op : Word) : (s.takeFault r op).draws = s.draws := rfl

@[simp] theorem setReg_cfg (x : Fin 16) (b : Byte) : (s.setReg x b).cfg = s.cfg := rfl
@[simp] theorem setReg_v (x : Fin 16) (b : Byte) : (s.setReg x b).v = s.v.set x b := rfl
@[simp] theorem setReg_idx (x : Fin 16) (b : Byte) : (s.setReg x b).idx = s.idx := rfl
@[simp] theorem setReg_pc (x : Fin 16) (b : Byte) : (s.setReg x b).pc = s.pc := rfl
@[simp] theorem setReg_stack (x : Fin 16) (b : Byte) : (s.setReg x b).stack = s.stack := rfl
@[simp] theorem setReg_sp (x : Fin 16) (b : Byte) : (s.setReg x b).sp = s.sp := rfl
@[simp] theorem setReg_dt (x : Fin 16) (b : Byte) : (s.setReg x b).dt = s.dt := rfl
@[simp] theorem setReg_st (x : Fin 16) (b : Byte) : (s.setReg x b).st = s.st := rfl
@[simp] theorem setReg_keys (x : Fin 16) (b : Byte) : (s.setReg x b).keys = s.keys := rfl
@[simp] theorem setReg_disp (x : Fin 16) (b : Byte) : (s.setReg x b).disp = s.disp := rfl
@[simp] theorem setReg_drawFlag (x : Fin 16) (b : Byte) : (s.setReg x b).drawFlag = s.drawFlag := rfl
@[simp] theorem setReg_status (x : Fin 16) (b : Byte) : (s.setReg x b).status = s.status := rfl
@[simp] theorem setReg_fault (x : Fin 16) (b : Byte) : (s.setReg x b).fault = s.fault := rfl
@[simp] theorem setReg_mem (x : Fin 16) (b : Byte) : (s.setReg x b).mem = s.mem := rfl
@[simp] theorem setReg_draws (x : Fin 16) (b : Byte) : (s.setReg x b).draws = s.draws := rfl

@[simp] theorem setRegs_cfg (v : Vector Byte 16) : (s.setRegs v).cfg = s.cfg := rfl
@[simp] theorem setRegs_v (v : Vector Byte 16) : (s.setRegs v).v = v := rfl
@[simp] theorem setRegs_idx (v : Vector Byte 16) : (s.setRegs v).idx = s.idx := rfl
@[simp] theorem setRegs_pc (v : Vector Byte 16) : (s.setRegs v).pc = s.pc := rfl
@[simp] theorem setRegs_stack (v : Vector Byte 16) : (s.setRegs v).stack = s.stack := rfl
@[simp] theorem setRegs_sp (v : Vector Byte 16) : (s.setRegs v).sp = s.sp := rfl
@[simp] theorem setRegs_dt (v : Vector Byte 16) : (s.setRegs v).dt = s.dt := rfl
@[simp] theorem setRegs_st (v : Vector Byte 16) : (s.setRegs v).st = s.st := rfl
@[simp] theorem setRegs_keys (v : Vector Byte 16) : (s.setRegs v).keys = s.keys := rfl
@[simp] theorem setRegs_disp (v : Vector Byte 16) : (s.setRegs v).disp = s.disp := rfl
@[simp] theorem setRegs_drawFlag (v : Vector Byte 16) : (s.setRegs v).drawFlag = s.drawFlag := rfl
@[simp] theorem setRegs_status (v : Vector Byte 16) : (s.setRegs v).status = s.status := rfl
@[simp] theorem setRegs_fault (v : Vector Byte 16) : (s.setRegs v).fault = s.fault := rfl
@[simp] theorem setRegs_mem (v : Vector Byte 16) : (s.setRegs v).mem = s.mem := rfl
@[simp] theorem setRegs_draws (v : Vector Byte 16) : (s.setRegs v).draws = s.draws := rfl

@[simp] theorem setIdx_cfg (w : Word) : (s.setIdx w).cfg = s.cfg := rfl
@[simp] theorem setIdx_v (w : Word) : (s.setIdx w).v = s.v := rfl
@[simp] theorem setIdx_idx (w : Word) : (s.setIdx w).idx = w := rfl
@[simp] theorem setIdx_pc (w : Word) : (s.setIdx w).pc = s.pc := rfl
@[simp] theorem setIdx_stack (w : Word) : (s.setIdx w).stack = s.stack := rfl
@[simp] theorem setIdx_sp (w : Word) : (s.setIdx w).sp = s.sp := rfl
@[simp] theorem setIdx_dt (w : Word) : (s.setIdx w).dt = s.dt := rfl
@[simp] theorem setIdx_st (w : Word) : (s.setIdx w).st = s.st := rfl
@[simp] theorem setIdx_keys (w : Word) : (s.setIdx w).keys = s.keys := rfl
@[simp] theorem setIdx_disp (w : Word) : (s.setIdx w).disp = s.disp := rfl
@[simp] theorem setIdx_drawFlag (w : Word) : (s.setIdx w).drawFlag = s.drawFlag := rfl
@[simp] theorem setIdx_status (w : Word) : (s.setIdx w).status = s.status := rfl
@[simp] theorem setIdx_fault (w : Word) : (s.setIdx w).fault = s.fault := rfl
@[simp] theorem setIdx_mem (w : Word) : (s.setIdx w).mem = s.mem := rfl
@[simp] theorem setIdx_draws (w : Word) : (s.setIdx w).draws = s.draws := rfl

@[simp] theorem setPc_cfg (w : Word) : (s.setPc w).cfg = s.cfg := rfl
@[simp] theorem setPc_v (w : Word) : (s.setPc w).v = s.v := rfl
@[simp] theorem setPc_idx (w : Word) : (s.setPc w).idx = s.idx := rfl
@[simp] theorem setPc_pc (w : Word) : (s.setPc w).pc = w := rfl
@[simp] theorem setPc_stack (w : Word) : (s.setPc w).stack = s.stack := rfl
@[simp] theorem setPc_sp (w : Word) : (s.setPc w).sp = s.sp := rfl
@[simp] theorem setPc_dt (w : Word) : (s.setPc w).dt = s.dt := rfl
@[simp] theorem setPc_st (w : Word) : (s.setPc w).st = s.st := rfl
@[simp] theorem setPc_keys (w : Word) : (s.setPc w).keys = s.keys := rfl
@[simp] theorem setPc_disp (w : Word) : (s.setPc w).disp = s.disp := rfl
@[simp] theorem setPc_drawFlag (w : Word) : (s.setPc w).drawFlag = s.drawFlag := rfl
@[simp] theorem setPc_status (w : Word) : (s.setPc w).status = s.status := rfl
@[simp] theorem setPc_fault (w : Word) : (s.setPc w).fault = s.fault := rfl
@[simp] theorem setPc_mem (w : Word) : (s.setPc w).mem = s.mem := rfl
@[simp] theorem setPc_draws (w : Word) : (s.setPc w).draws = s.draws := rfl

@[simp] theorem advance_cfg : (s.advance).cfg = s.cfg := rfl
@[simp] theorem advance_v : (s.advance).v = s.v := rfl
@[simp] theorem advance_idx : (s.advance).idx = s.idx := rfl
@[simp] theorem advance_pc : (s.advance).pc = s.pc + 2 := rfl
@[simp] theorem advance_stack : (s.advance).stack = s.stack := rfl
@[simp] theorem advance_sp : (s.advance).sp = s.sp := rfl
@[simp] theorem advance_dt : (s.advance).dt = s.dt := rfl
@[simp] theorem advance_st : (s.advance).st = s.st := rfl
@[simp] theorem advance_keys : (s.advance).keys = s.keys := rfl
@[simp] theorem advance_disp : (s.advance).disp = s.disp := rfl
@[simp] theorem advance_drawFlag : (s.advance).drawFlag = s.drawFlag := rfl
@[simp] theorem advance_status : (s.advance).status = s.status := rfl
@[simp] theorem advance_fault : (s.advance).fault = s.fault := rfl
@[simp] theorem advance_mem : (s.advance).mem = s.mem := rfl
@[simp] theorem advance_draws : (s.advance).draws = s.draws := rfl

@[simp] theorem skipIf_cfg (c : Prop) [Decidable c] : (s.skipIf c).cfg = s.cfg := rfl
@[simp] theorem skipIf_v (c : Prop) [Decidable c] : (s.skipIf c).v = s.v := rfl
@[simp] theorem skipIf_idx (c : Prop) [Decidable c] : (s.skipIf c).idx = s.idx := rfl
@[simp] theorem skipIf_pc (c : Prop) [Decidable c] : (s.skipIf c).pc = s.pc + if c then 4 else 2 := rfl
@[simp] theorem skipIf_stack (c : Prop) [Decidable c] : (s.skipIf c).stack = s.stack := rfl
@[simp] theorem skipIf_sp (c : Prop) [Decidable c] : (s.skipIf c).sp = s.sp := rfl
@[simp] theorem skipIf_dt (c : Prop) [Decidable c] : (s.skipIf c).dt = s.dt := rfl
@[simp] theorem skipIf_st (c : Prop) [Decidable c] : (s.skipIf c).st = s.st := rfl
@[simp] theorem skipIf_keys (c : Prop) [Decidable c] : (s.skipIf c).keys = s.keys := rfl
@[simp] theorem skipIf_disp (c : Prop) [Decidable c] : (s.skipIf c).disp = s.disp := rfl
@[simp] theorem skipIf_drawFlag (c : Prop) [Decidable c] : (s.skipIf c).drawFlag = s.drawFlag := rfl
@[simp] theorem skipIf_status (c : Prop) [Decidable c] : (s.skipIf c).status = s.status := rfl
@[simp] theorem skipIf_fault (c : Prop) [Decidable c] : (s.skipIf c).fault = s.fault := rfl
@[simp] theorem skipIf_mem (c : Prop) [Decidable c] : (s.skipIf c).mem = s.mem := rfl
@[simp] theorem skipIf_draws (c : Prop) [Decidable c] : (s.skipIf c).draws = s.draws := rfl

@[simp] theorem halt_cfg : (s.halt).cfg = s.cfg := rfl
@[simp] theorem halt_v : (s.halt).v = s.v := rfl
@[simp] theorem halt_idx : (s.halt).idx = s.idx := rfl
@[simp] theorem halt_pc : (s.halt).pc = s.pc := rfl
@[simp] theorem halt_stack : (s.halt).stack = s.stack := rfl
@[simp] theorem halt_sp : (s.halt).sp = s.sp := rfl
@[simp] theorem halt_dt : (s.halt).dt = s.dt := rfl
@[simp] theorem halt_st : (s.halt).st = s.st := rfl
@[simp] theorem halt_keys : (s.halt).keys = s.keys := rfl
@[simp] theorem halt_disp : (s.halt).disp = s.disp := rfl
@[simp] theorem halt_drawFlag : (s.halt).drawFlag = s.drawFlag := rfl
@[simp] theorem halt_status : (s.halt).status = .halted := rfl
@[simp] theorem halt_fault : (s.halt).fault = s.fault := rfl
@[simp] theorem halt_mem : (s.halt).mem = s.mem := rfl
@[simp] theorem halt_draws : (s.halt).draws = s.draws := rfl

@[simp] theorem setDt_cfg (b : Byte) : (s.setDt b).cfg = s.cfg := rfl
@[simp] theorem setDt_v (b : Byte) : (s.setDt b).v = s.v := rfl
@[simp] theorem setDt_idx (b : Byte) : (s.setDt b).idx = s.idx := rfl
@[simp] theorem setDt_pc (b : Byte) : (s.setDt b).pc = s.pc := rfl
@[simp] theorem setDt_stack (b : Byte) : (s.setDt b).stack = s.stack := rfl
@[simp] theorem setDt_sp (b : Byte) : (s.setDt b).sp = s.sp := rfl
@[simp] theorem setDt_dt (b : Byte) : (s.setDt b).dt = b := rfl
@[simp] theorem setDt_st (b : Byte) : (s.setDt b).st = s.st := rfl
@[simp] theorem setDt_keys (b : Byte) : (s.setDt b).keys = s.keys := rfl
@[simp] theorem setDt_disp (b : Byte) : (s.setDt b).disp = s.disp := rfl
@[simp] theorem setDt_drawFlag (b : Byte) : (s.setDt b).drawFlag = s.drawFlag := rfl
@[simp] theorem setDt_status (b : Byte) : (s.setDt b).status = s.status := rfl
@[simp] theorem setDt_fault (b : Byte) : (s.setDt b).fault = s.fault := rfl
@[simp] theorem setDt_mem (b : Byte) : (s.setDt b).mem = s.mem := rfl
@[simp] theorem setDt_draws (b : Byte) : (s.setDt b).draws = s.draws := rfl

@[simp] theorem setSt_cfg (b : Byte) : (s.setSt b).cfg = s.cfg := rfl
@[simp] theorem setSt_v (b : Byte) : (s.setSt b).v = s.v := rfl
@[simp] theorem setSt_idx (b : Byte) : (s.setSt b).idx = s.idx := rfl
@[simp] theorem setSt_pc (b : Byte) : (s.setSt b).pc = s.pc := rfl
@[simp] theorem setSt_stack (b : Byte) : (s.setSt b).stack = s.stack := rfl
@[simp] theorem setSt_sp (b : Byte) : (s.setSt b).sp = s.sp := rfl
@[simp] theorem setSt_dt (b : Byte) : (s.setSt b).dt = s.dt := rfl
@[simp] theorem setSt_st (b : Byte) : (s.setSt b).st = b := rfl
@[simp] theorem setSt_keys (b : Byte) : (s.setSt b).keys = s.keys := rfl
@[simp] theorem setSt_disp (b : Byte) : (s.setSt b).disp = s.disp := rfl
@[simp] theorem setSt_drawFlag (b : Byte) : (s.setSt b).drawFlag = s.drawFlag := rfl
@[simp] theorem setSt_status (b : Byte) : (s.setSt b).status = s.status := rfl
@[simp] theorem setSt_fault (b : Byte) : (s.setSt b).fault = s.fault := rfl
@[simp] theorem setSt_mem (b : Byte) : (s.setSt b).mem = s.mem := rfl
@[simp] theorem setSt_draws (b : Byte) : (s.setSt b).draws = s.draws := rfl

@[simp] theorem setKeys_cfg (k : Vector Bool 16) : (s.setKeys k).cfg = s.cfg := rfl
@[simp] theorem setKeys_v (k : Vector Bool 16) : (s.setKeys k).v = s.v := rfl
@[simp] theorem setKeys_idx (k : Vector Bool 16) : (s.setKeys k).idx = s.idx := rfl
@[simp] theorem setKeys_pc (k : Vector Bool 16) : (s.setKeys k).pc = s.pc := rfl
@[simp] theorem setKeys_stack (k : Vector Bool 16) : (s.setKeys k).stack = s.stack := rfl
@[simp] theorem setKeys_sp (k : Vector Bool 16) : (s.setKeys k).sp = s.sp := rfl
@[simp] theorem setKeys_dt (k : Vector Bool 16) : (s.setKeys k).dt = s.dt := rfl
@[simp] theorem setKeys_st (k : Vector Bool 16) : (s.setKeys k).st = s.st := rfl
@[simp] theorem setKeys_keys (k : Vector Bool 16) : (s.setKeys k).keys = k := rfl
@[simp] theorem setKeys_disp (k : Vector Bool 16) : (s.setKeys k).disp = s.disp := rfl
@[simp] theorem setKeys_drawFlag (k : Vector Bool 16) : (s.setKeys k).drawFlag = s.drawFlag := rfl
@[simp] theorem setKeys_status (k : Vector Bool 16) : (s.setKeys k).status = s.status := rfl
@[simp] theorem setKeys_fault (k : Vector Bool 16) : (s.setKeys k).fault = s.fault := rfl
@[simp] theorem setKeys_mem (k : Vector Bool 16) : (s.setKeys k).mem = s.mem := rfl
@[simp] theorem setKeys_draws (k : Vector Bool 16) : (s.setKeys k).draws = s.draws := rfl

@[simp] theorem setDisplay_cfg (d : Display) : (s.setDisplay d).cfg = s.cfg := rfl
@[simp] theorem setDisplay_v (d : Display) : (s.setDisplay d).v = s.v := rfl
@[simp] theorem setDisplay_idx (d : Display) : (s.setDisplay d).idx = s.idx := rfl
@[simp] theorem setDisplay_pc (d : Display) : (s.setDisplay d).pc = s.pc := rfl
@[simp] theorem setDisplay_stack (d : Display) : (s.setDisplay d).stack = s.stack := rfl
@[simp] theorem setDisplay_sp (d : Display) : (s.setDisplay d).sp = s.sp := rfl
@[simp] theorem setDisplay_dt (d : Display) : (s.setDisplay d).dt = s.dt := rfl
@[simp] theorem setDisplay_st (d : Display) : (s.setDisplay d).st = s.st := rfl
@[simp] theorem setDisplay_keys (d : Display) : (s.setDisplay d).keys = s.keys := rfl
@[simp] theorem setDisplay_disp (d : Display) : (s.setDisplay d).disp = d := rfl
@[simp] theorem setDisplay_drawFlag (d : Display) : (s.setDisplay d).drawFlag = true := rfl
@[simp] theorem setDisplay_status (d : Display) : (s.setDisplay d).status = s.status := rfl
@[simp] theorem setDisplay_fault (d : Display) : (s.setDisplay d).fault = s.fault := rfl
@[simp] theorem setDisplay_mem (d : Display) : (s.setDisplay d).mem = s.mem := rfl
@[simp] theorem setDisplay_draws (d : Display) : (s.setDisplay d).draws = s.draws := rfl

@[simp] theorem countDraw_cfg : (s.countDraw).cfg = s.cfg := rfl
@[simp] theorem countDraw_v : (s.countDraw).v = s.v := rfl
@[simp] theorem countDraw_idx : (s.countDraw).idx = s.idx := rfl
@[simp] theorem countDraw_pc : (s.countDraw).pc = s.pc := rfl
@[simp] theorem countDraw_stack : (s.countDraw).stack = s.stack := rfl
@[simp] theorem countDraw_sp : (s.countDraw).sp = s.sp := rfl
@[simp] theorem countDraw_dt : (s.countDraw).dt = s.dt := rfl
@[simp] theorem countDraw_st : (s.countDraw).st = s.st := rfl
@[simp] theorem countDraw_keys : (s.countDraw).keys = s.keys := rfl
@[simp] theorem countDraw_disp : (s.countDraw).disp = s.disp := rfl
@[simp] theorem countDraw_drawFlag : (s.countDraw).drawFlag = s.drawFlag := rfl
@[simp] theorem countDraw_status : (s.countDraw).status = s.status := rfl
@[simp] theorem countDraw_fault : (s.countDraw).fault = s.fault := rfl
@[simp] theorem countDraw_mem : (s.countDraw).mem = s.mem := rfl
@[simp] theorem countDraw_draws : (s.countDraw).draws = s.draws + 1 := rfl

@[simp] theorem storeBytes_cfg (a : Nat) (bs : List Byte) : (s.storeBytes a bs).cfg = s.cfg := by
  induction bs generalizing a s with
  | nil => rfl
  | cons b bs ih => simp [storeBytes, ih]
@[simp] theorem storeBytes_v (a : Nat) (bs : List Byte) : (s.storeBytes a bs).v = s.v := by
  induction bs generalizing a s with
  | nil => rfl
  | cons b bs ih => simp [storeBytes, ih]
@[simp] theorem storeBytes_idx (a : Nat) (bs : List Byte) : (s.storeBytes a bs).idx = s.idx := by
  induction bs generalizing a s with
  | nil => rfl
  | cons b bs ih => simp [storeBytes, ih]
@[simp] theorem storeBytes_pc (a : Nat) (bs : List Byte) : (s.storeBytes a bs).pc = s.pc := by
  induction bs generalizing a s with
  | nil => rfl
  | cons b bs ih => simp [storeBytes, ih]
@[simp] theorem storeBytes_stack (a : Nat) (bs : List Byte) : (s.storeBytes a bs).stack = s.stack := by
  induction bs generalizing a s with
  | nil => rfl
  | cons b bs ih => simp [storeBytes, ih]
@[simp] theorem storeBytes_sp (a : Nat) (bs : List Byte) : (s.storeBytes a bs).sp = s.sp := by
  induction bs generalizing a s with
  | nil => rfl
  | cons b bs ih => simp [storeBytes, ih]
@[simp] theorem storeBytes_dt (a : Nat) (bs : List Byte) : (s.storeBytes a bs).dt = s.dt := by
  induction bs generalizing a s with
  | nil => rfl
  | cons b bs ih => simp [storeBytes, ih]
@[simp] theorem storeBytes_st (a : Nat) (bs : List Byte) : (s.storeBytes a bs).st = s.st := by
  induction bs generalizing a s with
  | nil => rfl
  | cons b bs ih => simp [storeBytes, ih]
@[simp] theorem storeBytes_keys (a : Nat) (bs : List Byte) : (s.storeBytes a bs).keys = s.keys := by
  induction bs generalizing a s with
  | nil => rfl
  | cons b bs ih => simp [storeBytes, ih]
@[simp] theorem storeBytes_disp (a : Nat) (bs : List Byte) : (s.storeBytes a bs).disp = s.disp := by
  induction bs generalizing a s with
  | nil => rfl
  | cons b bs ih => simp [storeBytes, ih]
@[simp] theorem storeBytes_drawFlag (a : Nat) (bs : List Byte) : (s.storeBytes a bs).drawFlag = s.drawFlag := by
  induction bs generalizing a s with
  | nil => rfl
  | cons b bs ih => simp [storeBytes, ih]
@[simp] theorem storeBytes_status (a : Nat) (bs : List Byte) : (s.storeBytes a bs).status = s.status := by
  induction bs generalizing a s with
  | nil => rfl
  | cons b bs ih => simp [storeBytes, ih]
@[simp] theorem storeBytes_fault (a : Nat) (bs : List Byte) : (s.storeBytes a bs).fault = s.fault := by
  induction bs generalizing a s with
  | nil => rfl
  | cons b bs ih => simp [storeBytes, ih]
@[simp] theorem storeBytes_draws (a : Nat) (bs : List Byte) : (s.storeBytes a bs).draws = s.draws := by
  induction bs generalizing a s with
  | nil => rfl
  | cons b bs ih => simp [storeBytes, ih]

@[simp] theorem setResultFlag_cfg (x : Fin 16) (r g : Byte) : (s.setResultFlag x r g).cfg = s.cfg := by
  unfold setResultFlag; split <;> rfl
@[simp] theorem setResultFlag_idx (x : Fin 16) (r g : Byte) : (s.setResultFlag x r g).idx = s.idx := by
  unfold setResultFlag; split <;> rfl
@[simp] theorem setResultFlag_pc (x : Fin 16) (r g : Byte) : (s.setResultFlag x r g).pc = s.pc := by
  unfold setResultFlag; split <;> rfl
@[simp] theorem setResultFlag_stack (x : Fin 16) (r g : Byte) : (s.setResultFlag x r g).stack = s.stack := by
  unfold setResultFlag; split <;> rfl
@[simp] theorem setResultFlag_sp (x : Fin 16) (r g : Byte) : (s.setResultFlag x r g).sp = s.sp := by
  unfold setResultFlag; split <;> rfl
@[simp] theorem setResultFlag_dt (x : Fin 16) (r g : Byte) : (s.setResultFlag x r g).dt = s.dt := by
  unfold setResultFlag; split <;> rfl
@[simp] theorem setResultFlag_st (x : Fin 16) (r g : Byte) : (s.setResultFlag x r g).st = s.st := by
  unfold setResultFlag; split <;> rfl
@[simp] theorem setResultFlag_keys (x : Fin 16) (r g : Byte) : (s.setResultFlag x r g).keys = s.keys := by
  unfold setResultFlag; split <;> rfl
@[simp] theorem setResultFlag_disp (x : Fin 16) (r g : Byte) : (s.setResultFlag x r g).disp = s.disp := by
  unfold setResultFlag; split <;> rfl
@[simp] theorem setResultFlag_drawFlag (x : Fin 16) (r g : Byte) : (s.setResultFlag x r g).drawFlag = s.drawFlag := by
  unfold setResultFlag; split <;> rfl
@[simp] theorem setResultFlag_status (x : Fin 16) (r g : Byte) : (s.setResultFlag x r g).status = s.status := by
  unfold setResultFlag; split <;> rfl
@[simp] theorem setResultFlag_fault (x : Fin 16) (r g : Byte) : (s.setResultFlag x r g).fault = s.fault := by
  unfold setResultFlag; split <;> rfl
@[simp] theorem setResultFlag_mem (x : Fin 16) (r g : Byte) : (s.setResultFlag x r g).mem = s.mem := by
  unfold setResultFlag; split <;> rfl
@[simp] theorem setResultFlag_draws (x : Fin 16) (r g : Byte) : (s.setResultFlag x r g).draws = s.draws := by
  unfold setResultFlag; split <;> rfl

@[simp] theorem timerDecrement_cfg : s.timerDecrement.1.cfg = s.cfg := rfl
@[simp] theorem timerDecrement_v : s.timerDecrement.1.v = s.v := rfl
@[simp] theorem timerDecrement_idx : s.timerDecrement.1.idx = s.idx := rfl
@[simp] theorem timerDecrement_pc : s.timerDecrement.1.pc = s.pc := rfl
@[simp] theorem timerDecrement_stack : s.timerDecrement.1.stack = s.stack := rfl
@[simp] theorem timerDecrement_sp : s.timerDecrement.1.sp = s.sp := rfl
@[simp] theorem timerDecrement_dt : s.timerDecrement.1.dt = decTimer s.dt := rfl
@[simp] theorem timerDecrement_st : s.timerDecrement.1.st = decTimer s.st := rfl
@[simp] theorem timerDecrement_keys : s.timerDecrement.1.keys = s.keys := rfl
@[simp] theorem timerDecrement_disp : s.timerDecrement.1.disp = s.disp := rfl
@[simp] theorem timerDecrement_drawFlag : s.timerDecrement.1.drawFlag = s.drawFlag := rfl
@[simp] theorem timerDecrement_status : s.timerDecrement.1.status = s.status := rfl
@[simp] theorem timerDecrement_fault : s.timerDecrement.1.fault = s.fault := rfl
@[simp] theorem timerDecrement_mem : s.timerDecrement.1.mem = s.mem := rfl
@[simp] theorem timerDecrement_draws : s.timerDecrement.1.draws = s.draws := rfl
@[simp] theorem timerDecrement_beep : s.timerDecrement.2 = (decide (s.st = 1)) := rfl

/-! Register reads after the updates that write no register. -/

@[simp] theorem reg_storeByte (a : Nat) (b : Byte) (y : Fin 16) : (s.storeByte a b).reg y = s.reg y := rfl
@[simp] theorem reg_takeFault (r : Raise) (op : Word) (y : Fin 16) : (s.takeFault r op).reg y = s.reg y := rfl
@[simp] theorem reg_setIdx (w : Word) (y : Fin 16) : (s.setIdx w).reg y = s.reg y := rfl
@[simp] theorem reg_setPc (w : Word) (y : Fin 16) : (s.setPc w).reg y = s.reg y := rfl
@[simp] theorem reg_advance (y : Fin 16) : (s.advance).reg y = s.reg y := rfl
@[simp] theorem reg_skipIf (c : Prop) [Decidable c] (y : Fin 16) : (s.skipIf c).reg y = s.reg y := rfl
@[simp] theorem reg_halt (y : Fin 16) : (s.halt).reg y = s.reg y := rfl
@[simp] theorem reg_setDt (b : Byte) (y : Fin 16) : (s.setDt b).reg y = s.reg y := rfl
@[simp] theorem reg_setSt (b : Byte) (y : Fin 16) : (s.setSt b).reg y = s.reg y := rfl
@[simp] theorem reg_setKeys (k : Vector Bool 16) (y : Fin 16) : (s.setKeys k).reg y = s.reg y := rfl
@[simp] theorem reg_setDisplay (d : Display) (y : Fin 16) : (s.setDisplay d).reg y = s.reg y := rfl
@[simp] theorem reg_countDraw (y : Fin 16) : (s.countDraw).reg y = s.reg y := rfl
@[simp] theorem reg_storeBytes (a : Nat) (bs : List Byte) (y : Fin 16) : (s.storeBytes a bs).reg y = s.reg y := by
  simp [reg]
@[simp] theorem reg_timerDecrement (y : Fin 16) : s.timerDecrement.1.reg y = s.reg y := rfl

/-! Memory reads after the updates that write no memory. -/

@[simp] theorem byteAt_takeFault (r : Raise) (op : Word) (c : Nat) : (s.takeFault r op).byteAt c = s.byteAt c := rfl
@[simp] theorem byteAt_setReg (x : Fin 16) (b : Byte) (c : Nat) : (s.setReg x b).byteAt c = s.byteAt c := rfl
@[simp] theorem byteAt_setRegs (v : Vector Byte 16) (c : Nat) : (s.setRegs v).byteAt c = s.byteAt c := rfl
@[simp] theorem byteAt_setIdx (w : Word) (c : Nat) : (s.setIdx w).byteAt c = s.byteAt c := rfl
@[simp] theorem byteAt_setPc (w : Word) (c : Nat) : (s.setPc w).byteAt c = s.byteAt c := rfl
@[simp] theorem byteAt_advance (c : Nat) : (s.advance).byteAt c = s.byteAt c := rfl
@[simp] theorem byteAt_skipIf (p : Prop) [Decidable p] (c : Nat) : (s.skipIf p).byteAt c = s.byteAt c := rfl
@[simp] theorem byteAt_halt (c : Nat) : (s.halt).byteAt c = s.byteAt c := rfl
@[simp] theorem byteAt_setDt (b : Byte) (c : Nat) : (s.setDt b).byteAt c = s.byteAt c := rfl
@[simp] theorem byteAt_setSt (b : Byte) (c : Nat) : (s.setSt b).byteAt c = s.byteAt c := rfl
@[simp] theorem byteAt_setKeys (k : Vector Bool 16) (c : Nat) : (s.setKeys k).byteAt c = s.byteAt c := rfl
@[simp] theorem byteAt_setDisplay (d : Display) (c : Nat) : (s.setDisplay d).byteAt c = s.byteAt c := rfl
@[simp] theorem byteAt_countDraw (c : Nat) : (s.countDraw).byteAt c = s.byteAt c := rfl
@[simp] theorem byteAt_setResultFlag (x : Fin 16) (r g : Byte) (c : Nat) : (s.setResultFlag x r g).byteAt c = s.byteAt c := by
  simp [byteAt]
@[simp] theorem byteAt_timerDecrement (c : Nat) : s.timerDecrement.1.byteAt c = s.byteAt c := rfl

/-- A store of bytes is an update of memory alone. -/
theorem storeBytes_eq (a : Nat) (bs : List Byte) : s.storeBytes a bs = { s with mem := (s.storeBytes a bs).mem } := by
  induction bs generalizing a s with
  | nil => rfl
  | cons b bs ih => exact ih (s.storeByte a b) (a + 1)

/-- The writes of a result and a flag are an update of the registers alone. -/
theorem setResultFlag_eq (x : Fin 16) (r g : Byte) :
    s.setResultFlag x r g = { s with v := (s.setResultFlag x r g).v } := by
  unfold setResultFlag; split <;> rfl

@[simp] theorem reg_setReg_self (x : Fin 16) (b : Byte) : (s.setReg x b).reg x = b := by simp [reg]

theorem reg_setReg_ne (x y : Fin 16) (b : Byte) (h : y ≠ x) : (s.setReg x b).reg y = s.reg y := by
  have : x.val ≠ y.val := fun e => h (Fin.ext e.symm)
  simp [reg, Vector.getElem_set_ne, this]

theorem reg_setReg (x y : Fin 16) (b : Byte) : (s.setReg x b).reg y = if y = x then b else s.reg y := by
  by_cases h : y = x
  · subst h; simp
  · simp [h, reg_setReg_ne]

/-- What `setResultFlag` leaves in each register: under FlagLast the flag wins in VF, under ResultLast the result
(10_state.md R103). -/
theorem reg_setResultFlag (x y : Fin 16) (r g : Byte) :
    (s.setResultFlag x r g).reg y =
      if y = x ∧ (x ≠ 15 ∨ s.cfg.vfOrder = .resultLast) then r else if y = 15 then g else s.reg y := by
  unfold setResultFlag
  split <;> rename_i h <;> simp only [reg_setReg, h]
  · by_cases hy : y = x <;> by_cases hx : x = 15 <;> simp_all
  · by_cases hy : y = x <;> simp [hy]

/-- The register read of the statements and of the model are one. -/
theorem getElem_v (x : Fin 16) : s.v[x] = s.reg x := rfl

/-- Every update that leaves the registers alone leaves their reads alone. -/
theorem reg_congr {s t : State} (h : t.v = s.v) (x : Fin 16) : t.reg x = s.reg x := by simp [reg, h]

end Sys2Proof.Machine.State
end

