-- ==== Sys2Proof/Laws/Memory.lean ====
section
/-!
SUPPORT. The memory laws: read after write, every other address left alone, and the canonical form kept by every
operation.
-/

namespace Sys2Proof.Machine

variable {font : Vector (Vector Byte 5) 16} {m : Memory} {a c : Nat} {b : Byte}

theorem Memory.find_insert_self (a : Nat) (b : Byte) (m : Memory) : Memory.find a (Memory.insert a b m) = some b := by
  induction m with
  | nil => simp [Memory.insert, Memory.find]
  | cons x rest ih =>
    obtain ⟨c, d⟩ := x
    unfold Memory.insert
    split
    · simp [Memory.find]
    · split
      · simp [Memory.find]
      · simp [Memory.find, *]

theorem Memory.find_insert_ne (b : Byte) (m : Memory) (h : c ≠ a) :
    Memory.find c (Memory.insert a b m) = Memory.find c m := by
  induction m with
  | nil => simp [Memory.insert, Memory.find, h]
  | cons x rest ih =>
    obtain ⟨e, d⟩ := x
    unfold Memory.insert
    split
    · simp [Memory.find, h]
    · split
      · rename_i h2; subst h2; simp [Memory.find, h]
      · simp [Memory.find, ih]

theorem Memory.find_erase_self (a : Nat) (m : Memory) : Memory.find a (Memory.erase a m) = none := by
  induction m with
  | nil => rfl
  | cons x rest ih =>
    obtain ⟨e, d⟩ := x
    by_cases h : e = a
    · simpa [Memory.erase, h] using ih
    · have : ¬ a = e := fun q => h q.symm
      simpa [Memory.erase, h, Memory.find, this] using ih

theorem Memory.find_erase_ne (m : Memory) (h : c ≠ a) : Memory.find c (Memory.erase a m) = Memory.find c m := by
  induction m with
  | nil => rfl
  | cons x rest ih =>
    obtain ⟨e, d⟩ := x
    by_cases he : e = a
    · have : ¬ c = e := fun q => h (q.trans he)
      simpa [Memory.erase, he, Memory.find, h] using ih
    · by_cases hc : c = e
      · simp [Memory.erase, he, Memory.find, hc]
      · simpa [Memory.erase, he, Memory.find, hc] using ih

/-- A read after a write to the same address gives the byte written. -/
@[simp] theorem Memory.read_write_self (font : Vector (Vector Byte 5) 16) (m : Memory) (a : Nat) (b : Byte) :
    Memory.read font (Memory.write font m a b) a = b := by
  unfold Memory.write Memory.read
  split
  · simp [Memory.find_erase_self, *]
  · simp [Memory.find_insert_self]

/-- A write leaves every other address alone. -/
theorem Memory.read_write_ne (font : Vector (Vector Byte 5) 16) (m : Memory) (b : Byte) (h : c ≠ a) :
    Memory.read font (Memory.write font m a b) c = Memory.read font m c := by
  unfold Memory.write Memory.read
  split
  · simp [Memory.find_erase_ne _ h]
  · simp [Memory.find_insert_ne _ _ h]

theorem Memory.mem_insert {x : Host.Cell} (h : x ∈ Memory.insert a b m) : x = (a, b) ∨ x ∈ m := by
  induction m with
  | nil => simpa [Memory.insert] using h
  | cons y rest ih =>
    obtain ⟨e, d⟩ := y
    unfold Memory.insert at h
    split at h
    · simpa using h
    · split at h
      · simp only [List.mem_cons] at h ⊢; tauto
      · simp only [List.mem_cons] at h ⊢
        rcases h with h | h
        · exact .inr (.inl h)
        · rcases ih h with h | h
          · exact .inl h
          · exact .inr (.inr h)

theorem Memory.pairwise_insert (a : Nat) (b : Byte) (h : m.Pairwise (fun c d => c.1 < d.1)) :
    (Memory.insert a b m).Pairwise (fun c d => c.1 < d.1) := by
  induction m with
  | nil => simp [Memory.insert]
  | cons y rest ih =>
    obtain ⟨e, d⟩ := y
    rw [List.pairwise_cons] at h
    unfold Memory.insert
    split
    · rename_i hlt
      refine List.pairwise_cons.2 ⟨fun z hz => ?_, List.pairwise_cons.2 h⟩
      rcases List.mem_cons.1 hz with rfl | hz
      · exact hlt
      · exact Nat.lt_trans hlt (h.1 z hz)
    · split
      · rename_i he; subst he
        exact List.pairwise_cons.2 ⟨fun z hz => h.1 z hz, h.2⟩
      · refine List.pairwise_cons.2 ⟨fun z hz => ?_, ih h.2⟩
        rcases Memory.mem_insert hz with rfl | hz
        · show e < a; omega
        · exact h.1 z hz

/-- The empty memory is in canonical form. -/
theorem Memory.wf_nil (font : Vector (Vector Byte 5) 16) : Memory.wf font [] := by simp [Memory.wf]

/-- A write to an address of the address space keeps the canonical form. -/
theorem Memory.wf_write (b : Byte) (hm : Memory.wf font m) (ha : a < memSize) :
    Memory.wf font (Memory.write font m a b) := by
  unfold Memory.write
  split
  · refine ⟨hm.1.filter _, fun c hc => hm.2 c (List.mem_of_mem_filter hc)⟩
  · rename_i hne
    refine ⟨Memory.pairwise_insert a b hm.1, fun c hc => ?_⟩
    rcases Memory.mem_insert hc with rfl | hc
    · exact ⟨ha, hne⟩
    · exact hm.2 c hc

namespace State

variable (s : State)

@[simp] theorem byteAt_storeByte_self (a : Nat) (b : Byte) : (s.storeByte a b).byteAt a = b := by
  simp [byteAt]

theorem byteAt_storeByte_ne (b : Byte) (h : c ≠ a) : (s.storeByte a b).byteAt c = s.byteAt c := by
  simp [byteAt, Memory.read_write_ne _ _ _ h]

/-- Reads depend on memory and the parameters alone. -/
theorem byteAt_congr {s t : State} (hc : t.cfg = s.cfg) (hm : t.mem = s.mem) (a : Nat) : t.byteAt a = s.byteAt a := by
  simp [byteAt, hc, hm]

/-- What `storeBytes` leaves at an address: its byte inside the stored range, the old byte outside it. -/
theorem byteAt_storeBytes (a : Nat) (bs : List Byte) (c : Nat) :
    (s.storeBytes a bs).byteAt c = if h : a ≤ c ∧ c < a + bs.length then bs[c - a]'(by omega) else s.byteAt c := by
  induction bs generalizing a s with
  | nil => simp only [storeBytes, List.length_nil]; rw [dif_neg (by omega)]
  | cons b bs ih =>
    simp only [storeBytes, ih, List.length_cons]
    by_cases h1 : a + 1 ≤ c ∧ c < a + 1 + bs.length
    · rw [dif_pos h1, dif_pos (by omega)]
      have : c - a = (c - (a + 1)) + 1 := by omega
      simp [this]
    · rw [dif_neg h1]
      by_cases h2 : c = a
      · subst h2; rw [dif_pos (by omega)]; simp
      · rw [byteAt_storeByte_ne _ _ h2, dif_neg (by omega)]

/-- Inside the stored range the stored byte is read. -/
theorem byteAt_storeBytes_inside (a : Nat) (bs : List Byte) (k : Nat) (h : k < bs.length) :
    (s.storeBytes a bs).byteAt (a + k) = bs[k] := by
  rw [byteAt_storeBytes, dif_pos (by omega)]
  simp

/-- Outside the stored range every byte is as before. -/
theorem byteAt_storeBytes_outside (a : Nat) (bs : List Byte) (c : Nat) (h : ¬ (a ≤ c ∧ c < a + bs.length)) :
    (s.storeBytes a bs).byteAt c = s.byteAt c := by
  rw [byteAt_storeBytes, dif_neg h]

/-- Storing bytes inside the address space keeps the canonical form. -/
theorem wf_storeBytes (a : Nat) (bs : List Byte) (hm : Memory.wf s.cfg.font s.mem) (ha : a + bs.length ≤ memSize) :
    Memory.wf s.cfg.font (s.storeBytes a bs).mem := by
  induction bs generalizing a s with
  | nil => exact hm
  | cons b bs ih =>
    simp only [List.length_cons] at ha
    exact ih (s.storeByte a b) (a + 1) (Memory.wf_write b hm (by omega)) (by omega)

@[simp] theorem length_loadBytes (a n : Nat) : (s.loadBytes a n).length = n := by simp [loadBytes]

@[simp] theorem getElem_loadBytes (a n k : Nat) (h : k < (s.loadBytes a n).length) :
    (s.loadBytes a n)[k] = s.byteAt (a + k) := by simp [loadBytes]

@[simp] theorem length_dumpBytes (x : Fin 16) : (s.dumpBytes x).length = x.val + 1 := by
  simp [dumpBytes]

@[simp] theorem getElem_dumpBytes (x : Fin 16) (k : Nat) (h : k < (s.dumpBytes x).length) :
    (s.dumpBytes x)[k] = s.reg ⟨k, by simp at h; omega⟩ := by
  simp [dumpBytes, reg]

@[simp] theorem reg_setRegs_loadedRegs (x y : Fin 16) :
    (s.setRegs (s.loadedRegs x)).reg y = if y ≤ x then s.byteAt (s.base + y.val) else s.reg y := by
  simp [reg, loadedRegs]

end State

end Sys2Proof.Machine
end

