-- ==== Sys2Proof/Laws/Ops.lean ====
section
/-!
SUPPORT. One lemma per shared operation that says what it can do: the bounds check, push and pop, the timers, key
indices and the lowest key, glyph addresses and digits, pixels, fetch, and the work of a step.
-/

namespace Sys2Proof.Machine

/-! ## Bounds check -/

theorem rangeFault_eq_none (k : FaultKind) (base count : Nat) :
    rangeFault k base count = none ↔ count = 0 ∨ base + count ≤ 0x1000 := by
  unfold rangeFault
  split
  · simp only [reduceCtorEq, false_iff]; omega
  · simp only [true_iff]; omega

theorem rangeFault_eq_some (k : FaultKind) (base count : Nat) (r : Raise) :
    rangeFault k base count = some r ↔
      (0 < count ∧ 0x1000 < base + count) ∧ r = ⟨k, trunc16 (max base 0x1000)⟩ := by
  unfold rangeFault
  split
  · rename_i h
    simp only [Option.some.injEq, eq_comm (b := r)]
    exact ⟨fun e => ⟨by omega, e⟩, fun e => e.2⟩
  · simp only [reduceCtorEq, false_iff, not_and]
    intro h; omega

/-! ## Stack -/

namespace State

variable (s : State)

/-- A push succeeds exactly when sp < 16; it writes slot sp and adds one to sp, and nothing else. -/
theorem push_eq_some (w : Word) (t : State) :
    s.push w = some t ↔ ∃ h : s.sp.val < 16,
      t = { s with stack := s.stack.set s.sp.val w h, sp := ⟨s.sp.val + 1, by omega⟩ } := by
  unfold push
  split
  · rename_i h; simp [h, eq_comm]
  · rename_i h; simp [h]

theorem push_eq_none (w : Word) : s.push w = none ↔ s.sp.val = 16 := by
  unfold push
  have := s.sp.isLt
  split
  · simp only [reduceCtorEq, false_iff]; omega
  · simp only [true_iff]; omega

/-- A pop succeeds exactly when sp > 0; it gives slot sp − 1 and takes one from sp, and nothing else. -/
theorem pop_eq_some (w : Word) (t : State) :
    s.pop = some (w, t) ↔ ∃ h : 0 < s.sp.val,
      w = s.stack[s.sp.val - 1]'(by omega) ∧ t = { s with sp := ⟨s.sp.val - 1, by omega⟩ } := by
  unfold pop
  split
  · rename_i h; simp [h, eq_comm]
  · rename_i h; simp [h]

theorem pop_eq_none : s.pop = none ↔ s.sp.val = 0 := by
  unfold pop
  split
  · simp only [reduceCtorEq, false_iff]; omega
  · simp only [true_iff]; omega

end State

/-! ## Timers -/

theorem toNat_decTimer (b : Byte) : (decTimer b).toNat = b.toNat - 1 := by
  unfold decTimer
  split
  · rename_i h; subst h; rfl
  · rename_i h
    have h0 : b.toNat ≠ 0 := fun e => h (BitVec.eq_of_toNat_eq (by simpa using e))
    have := b.isLt
    rw [BitVec.toNat_sub]
    simp
    omega

/-! ## Keys -/

theorem keyIndex?_eq_some (b : Byte) (k : Fin 16) : keyIndex? b = some k ↔ b.toNat = k.val := by
  unfold keyIndex?
  split
  · simp [Fin.ext_iff]
  · simp only [reduceCtorEq, false_iff]; have := k.isLt; omega

theorem keyIndex?_eq_none (b : Byte) : keyIndex? b = none ↔ 16 ≤ b.toNat := by
  unfold keyIndex?
  split
  · simp only [reduceCtorEq, false_iff]; omega
  · simp only [true_iff]; omega

theorem State.lowestKey_eq_none (s : State) : s.lowestKey = none ↔ ∀ k, s.keyPressed k = false := by
  simp [State.lowestKey, List.find?_eq_none]

/-- The key found is pressed. -/
theorem State.keyPressed_of_lowestKey {s : State} {k : Fin 16} (h : s.lowestKey = some k) : s.keyPressed k = true :=
  List.find?_some h

/-! ## Digits and glyphs -/

@[simp] theorem length_bcdDigits (b : Byte) : (bcdDigits b).length = 3 := rfl

theorem toNat_glyphAddress (b : Byte) : (glyphAddress b).toNat = 5 * b.toNat := by
  have := b.isLt
  simp only [glyphAddress, trunc16, BitVec.toNat_ofNat]
  omega

/-! ## Pixels -/

theorem pixelIndex_lt (x y : Nat) : pixelIndex x y < 2048 := by unfold pixelIndex; omega

/-- A toggle flips its own pixel and no other. -/
theorem Display.pixel_toggle (d : Display) (j k : Nat) :
    Display.pixel (Display.toggle d j) k = (Display.pixel d k ^^ decide (k = j ∧ j < 2048)) := by
  unfold Display.pixel Display.toggle
  by_cases hk : k < 2048 <;> by_cases hj : j < 2048 <;> simp only [hk, hj, dif_pos, dif_neg, not_false_eq_true]
  · rw [Vector.getElem_set]
    split
    · rename_i h
      have e : d[j / 64]'(by omega) = d[k / 64]'(by omega) := by simp [h]
      rw [BitVec.getLsbD_xor, e, BitVec.getLsbD_twoPow]
      congr 1
      by_cases h2 : k = j
      · subst h2; simp; omega
      · have : ¬ j % 64 = k % 64 := by omega
        simp [h2, this]
    · rename_i h
      have : k ≠ j := fun e => h (by rw [e])
      simp [this]
  · simp
  · have : k ≠ j := by omega
    simp [this]
  · simp

/-- Displays that agree at every pixel are equal. -/
theorem Display.ext_pixel {d e : Display} (h : ∀ j < 2048, Display.pixel d j = Display.pixel e j) : d = e := by
  refine Vector.ext fun y hy => BitVec.eq_of_getLsbD_eq fun x hx => ?_
  have := h (64 * y + x) (by omega)
  unfold Display.pixel at this
  have h1 : (64 * y + x) / 64 = y := by omega
  have h2 : (64 * y + x) % 64 = x := by omega
  simpa [h1, h2, show 64 * y + x < 2048 by omega] using this

@[simp] theorem Display.pixel_blank (j : Nat) : Display.pixel .blank j = false := by
  unfold Display.pixel Display.blank
  split <;> simp

@[simp] theorem drawPixels_nil (acc : Display × Bool) : drawPixels [] acc = acc := rfl

@[simp] theorem drawPixels_cons (j : Nat) (js : List Nat) (acc : Display × Bool) :
    drawPixels (j :: js) acc = drawPixels js (Display.toggle acc.1 j, acc.2 || Display.pixel acc.1 j) := rfl

/-! ## The step cycle -/

theorem State.fetch_ok {s : State} (h : s.pc.toNat ≤ 0xFFE) :
    s.fetch = .ok (wordOfBytes (s.byteAt s.pc.toNat) (s.byteAt (s.pc.toNat + 1))) := by
  unfold State.fetch; rw [if_pos (by omega)]

theorem State.fetch_error {s : State} (h : 0xFFF ≤ s.pc.toNat) : s.fetch = .error ⟨.fetchOutOfRange, s.pc⟩ := by
  unfold State.fetch; rw [if_neg (by omega)]

/-- A stopped block has no work. -/
theorem State.work_eq_idle (s : State) : s.work = .idle ↔ s.status ≠ .running := by
  unfold State.work
  cases s.status <;> simp
  split
  · simp
  · split <;> simp

/-- A step runs an instruction exactly when the block runs and the fetched word decodes to it. -/
theorem State.work_eq_runs (s : State) (i : Instr) :
    s.work = .runs i ↔ s.status = .running ∧ ∃ op, s.fetch = .ok op ∧ decode op = .ok i := by
  unfold State.work
  cases s.status <;> simp
  cases hf : s.fetch with
  | error r => simp
  | ok op => cases hd : decode op <;> simp [hd]

/-- With the per-step decrement off, a step adds nothing to the instruction's own effect (30_encoding.md R336). -/
theorem finishStep_off {i : Instr} {s t : State} (h : s.cfg.stepDecrementsTimers = false) :
    finishStep i s t = (t, false) := by simp [finishStep, h]

end Sys2Proof.Machine
end

