-- ==== Sys2Proof/Laws/Exec.lean ====
section
/-!
SUPPORT. What exec and step can do, said once: the arms of exec, the inversion of exec over all instructions, and the
three cases of a step.
-/

namespace Sys2Proof.Machine

variable (s : State)

/-! ## The arms of exec -/

theorem exec_cls : exec .cls s = execCls s := rfl
theorem exec_ret : exec .ret s = execRet s := rfl
theorem exec_jp (nnn : Imm12) : exec (.jp nnn) s = execJp nnn s := rfl
theorem exec_call (nnn : Imm12) : exec (.call nnn) s = execCall nnn s := rfl
theorem exec_seImm (x : Reg) (nn : Byte) : exec (.seImm x nn) s = execSeImm x nn s := rfl
theorem exec_sneImm (x : Reg) (nn : Byte) : exec (.sneImm x nn) s = execSneImm x nn s := rfl
theorem exec_seReg (x y : Reg) : exec (.seReg x y) s = execSeReg x y s := rfl
theorem exec_ldImm (x : Reg) (nn : Byte) : exec (.ldImm x nn) s = execLdImm x nn s := rfl
theorem exec_addImm (x : Reg) (nn : Byte) : exec (.addImm x nn) s = execAddImm x nn s := rfl
theorem exec_ldReg (x y : Reg) : exec (.ldReg x y) s = execLdReg x y s := rfl
theorem exec_or (x y : Reg) : exec (.or x y) s = execOr x y s := rfl
theorem exec_and (x y : Reg) : exec (.and x y) s = execAnd x y s := rfl
theorem exec_xor (x y : Reg) : exec (.xor x y) s = execXor x y s := rfl
theorem exec_addReg (x y : Reg) : exec (.addReg x y) s = execAddReg x y s := rfl
theorem exec_sub (x y : Reg) : exec (.sub x y) s = execSub x y s := rfl
theorem exec_shr (x y : Reg) : exec (.shr x y) s = execShr x y s := rfl
theorem exec_subn (x y : Reg) : exec (.subn x y) s = execSubn x y s := rfl
theorem exec_shl (x y : Reg) : exec (.shl x y) s = execShl x y s := rfl
theorem exec_sneReg (x y : Reg) : exec (.sneReg x y) s = execSneReg x y s := rfl
theorem exec_ldI (nnn : Imm12) : exec (.ldI nnn) s = execLdI nnn s := rfl
theorem exec_jpV0 (nnn : Imm12) : exec (.jpV0 nnn) s = execJpV0 nnn s := rfl
theorem exec_rnd (x : Reg) (nn : Byte) : exec (.rnd x nn) s = execRnd x nn s := rfl
theorem exec_drw (x y : Reg) (n : Fin 16) : exec (.drw x y n) s = execDrw x y n s := rfl
theorem exec_skp (x : Reg) : exec (.skp x) s = execSkp x s := rfl
theorem exec_sknp (x : Reg) : exec (.sknp x) s = execSknp x s := rfl
theorem exec_ldVxDt (x : Reg) : exec (.ldVxDt x) s = execLdVxDt x s := rfl
theorem exec_ldVxK (x : Reg) : exec (.ldVxK x) s = execLdVxK x s := rfl
theorem exec_ldDtVx (x : Reg) : exec (.ldDtVx x) s = execLdDtVx x s := rfl
theorem exec_ldStVx (x : Reg) : exec (.ldStVx x) s = execLdStVx x s := rfl
theorem exec_addIVx (x : Reg) : exec (.addIVx x) s = execAddIVx x s := rfl
theorem exec_ldFVx (x : Reg) : exec (.ldFVx x) s = execLdFVx x s := rfl
theorem exec_ldBVx (x : Reg) : exec (.ldBVx x) s = execLdBVx x s := rfl
theorem exec_ldMemVx (x : Reg) : exec (.ldMemVx x) s = execLdMemVx x s := rfl
theorem exec_ldVxMem (x : Reg) : exec (.ldVxMem x) s = execLdVxMem x s := rfl

/-! ## What exec can do -/

/-- What every instruction leaves alone when it does not fault: the parameters, the key state and the fault record,
and the status but for a self-jump's halt. -/
structure Commits (s t : State) : Prop where
  cfg : t.cfg = s.cfg
  keys : t.keys = s.keys
  fault : t.fault = s.fault
  status : t.status = s.status ∨ t.status = .halted

/-- exec always answers a next state: a fault entry that records the instruction's own word, or a commit (the wait of
FX0A among them). -/
theorem exec_cases (i : Instr) (s : State) :
    ∃ t, exec i s = .next t ∧ ((∃ r : Raise, r.kind ≠ .noFault ∧ t = s.takeFault r (encode i)) ∨ Commits s t) := by
  cases i
  case cls => exact ⟨_, rfl, .inr ⟨by simp, by simp, by simp, .inl (by simp)⟩⟩
  case ret =>
    simp only [exec_ret, execRet]
    split
    · rename_i w t h
      obtain ⟨_, _, rfl⟩ := (State.pop_eq_some s w t).1 h
      exact ⟨_, rfl, .inr ⟨by simp, by simp, by simp, .inl (by simp)⟩⟩
    · exact ⟨_, rfl, .inl ⟨_, by simp, rfl⟩⟩
  case jp nnn =>
    simp only [exec_jp, execJp]
    split
    · exact ⟨_, rfl, .inr ⟨by simp, by simp, by simp, .inr (by simp)⟩⟩
    · exact ⟨_, rfl, .inr ⟨by simp, by simp, by simp, .inl (by simp)⟩⟩
  case call nnn =>
    simp only [exec_call, execCall]
    split
    · rename_i t h
      obtain ⟨_, rfl⟩ := (State.push_eq_some s _ t).1 h
      exact ⟨_, rfl, .inr ⟨by simp, by simp, by simp, .inl (by simp)⟩⟩
    · exact ⟨_, rfl, .inl ⟨_, by simp, rfl⟩⟩
  case drw x y n =>
    simp only [exec_drw, execDrw]
    split
    · rename_i r h
      obtain ⟨_, rfl⟩ := (rangeFault_eq_some _ _ _ r).1 h
      exact ⟨_, rfl, .inl ⟨_, by simp, rfl⟩⟩
    · exact ⟨_, rfl, .inr ⟨by simp, by simp, by simp, .inl (by simp)⟩⟩
  case skp x =>
    simp only [exec_skp, execSkp]
    split
    · exact ⟨_, rfl, .inr ⟨by simp, by simp, by simp, .inl (by simp)⟩⟩
    · exact ⟨_, rfl, .inl ⟨_, by simp [keyIndexFault], rfl⟩⟩
  case sknp x =>
    simp only [exec_sknp, execSknp]
    split
    · exact ⟨_, rfl, .inr ⟨by simp, by simp, by simp, .inl (by simp)⟩⟩
    · exact ⟨_, rfl, .inl ⟨_, by simp [keyIndexFault], rfl⟩⟩
  case ldVxK x =>
    simp only [exec_ldVxK, execLdVxK]
    split
    · exact ⟨_, rfl, .inr ⟨by simp, by simp, by simp, .inl (by simp)⟩⟩
    · exact ⟨_, rfl, .inr ⟨by simp, by simp, by simp, .inl (by simp)⟩⟩
  case ldBVx x =>
    simp only [exec_ldBVx, execLdBVx]
    split
    · rename_i r h
      obtain ⟨_, rfl⟩ := (rangeFault_eq_some _ _ _ r).1 h
      exact ⟨_, rfl, .inl ⟨_, by simp, rfl⟩⟩
    · exact ⟨_, rfl, .inr ⟨by simp, by simp, by simp, .inl (by simp)⟩⟩
  case ldMemVx x =>
    simp only [exec_ldMemVx, execLdMemVx]
    split
    · rename_i r h
      obtain ⟨_, rfl⟩ := (rangeFault_eq_some _ _ _ r).1 h
      exact ⟨_, rfl, .inl ⟨_, by simp, rfl⟩⟩
    · exact ⟨_, rfl, .inr ⟨by simp, by simp, by simp, .inl (by simp)⟩⟩
  case ldVxMem x =>
    simp only [exec_ldVxMem, execLdVxMem]
    split
    · rename_i r h
      obtain ⟨_, rfl⟩ := (rangeFault_eq_some _ _ _ r).1 h
      exact ⟨_, rfl, .inl ⟨_, by simp, rfl⟩⟩
    · exact ⟨_, rfl, .inr ⟨by simp, by simp, by simp, .inl (by simp)⟩⟩
  case addReg x y => exact ⟨_, rfl, .inr ⟨by simp, by simp, by simp, .inl (by simp)⟩⟩
  case sub x y => exact ⟨_, rfl, .inr ⟨by simp, by simp, by simp, .inl (by simp)⟩⟩
  case shr x y => exact ⟨_, rfl, .inr ⟨by simp, by simp, by simp, .inl (by simp)⟩⟩
  case subn x y => exact ⟨_, rfl, .inr ⟨by simp, by simp, by simp, .inl (by simp)⟩⟩
  case shl x y => exact ⟨_, rfl, .inr ⟨by simp, by simp, by simp, .inl (by simp)⟩⟩
  all_goals exact ⟨_, rfl, .inr ⟨by simp, by simp, by simp, .inl (by simp)⟩⟩

/-! ## What a step can do -/

/-- A stopped block: nothing changes. -/
theorem step_idle (h : s.work = .idle) : step s = .next s := by simp [step, stepBeep, h]

/-- Fetch or decode faults: the fault entry. -/
theorem step_raises {r : Raise} {op : Word} (h : s.work = .raises r op) : step s = .next (s.takeFault r op) := by
  simp [step, stepBeep, h]

/-- An instruction runs: exec, and then what the step adds. -/
theorem step_runs {i : Instr} {t : State} (h : s.work = .runs i) (ht : exec i s = .next t) :
    step s = .next (finishStep i s t).1 := by
  simp [step, stepBeep, h, ht]

end Sys2Proof.Machine
end

