-- ==== Sys2Proof/Laws/PerInstr.lean ====
section
/-!
SUPPORT. The family EncodingFitsRow: the word of every instruction fits its row of spec/opcode_table.json, that is,
word AND mask = match. The rows are written out from the table, not from `encode`.
-/

namespace Sys2Proof.Laws.EncodingFitsRow

/-- (match, mask) of an instruction's row in spec/opcode_table.json. -/
def row : Instr → Word × Word
  | .cls => (0x00E0, 0xFFFF)
  | .ret => (0x00EE, 0xFFFF)
  | .jp _ => (0x1000, 0xF000)
  | .call _ => (0x2000, 0xF000)
  | .seImm _ _ => (0x3000, 0xF000)
  | .sneImm _ _ => (0x4000, 0xF000)
  | .seReg _ _ => (0x5000, 0xF00F)
  | .ldImm _ _ => (0x6000, 0xF000)
  | .addImm _ _ => (0x7000, 0xF000)
  | .ldReg _ _ => (0x8000, 0xF00F)
  | .or _ _ => (0x8001, 0xF00F)
  | .and _ _ => (0x8002, 0xF00F)
  | .xor _ _ => (0x8003, 0xF00F)
  | .addReg _ _ => (0x8004, 0xF00F)
  | .sub _ _ => (0x8005, 0xF00F)
  | .shr _ _ => (0x8006, 0xF00F)
  | .subn _ _ => (0x8007, 0xF00F)
  | .shl _ _ => (0x800E, 0xF00F)
  | .sneReg _ _ => (0x9000, 0xF00F)
  | .ldI _ => (0xA000, 0xF000)
  | .jpV0 _ => (0xB000, 0xF000)
  | .rnd _ _ => (0xC000, 0xF000)
  | .drw _ _ _ => (0xD000, 0xF000)
  | .skp _ => (0xE09E, 0xF0FF)
  | .sknp _ => (0xE0A1, 0xF0FF)
  | .ldVxDt _ => (0xF007, 0xF0FF)
  | .ldVxK _ => (0xF00A, 0xF0FF)
  | .ldDtVx _ => (0xF015, 0xF0FF)
  | .ldStVx _ => (0xF018, 0xF0FF)
  | .addIVx _ => (0xF01E, 0xF0FF)
  | .ldFVx _ => (0xF029, 0xF0FF)
  | .ldBVx _ => (0xF033, 0xF0FF)
  | .ldMemVx _ => (0xF055, 0xF0FF)
  | .ldVxMem _ => (0xF065, 0xF0FF)

/-- The word of the instruction has its row's fixed bits. -/
def Statement (i : Instr) : Prop := encode i &&& (row i).2 = (row i).1

theorem and_ofNibbles (c x y n c' x' y' n' : BitVec 4) :
    ofNibbles c x y n &&& ofNibbles c' x' y' n' = ofNibbles (c &&& c') (x &&& x') (y &&& y') (n &&& n') := by
  have h : (c ++ x ++ y ++ n) &&& (c' ++ x' ++ y' ++ n') = (c &&& c') ++ (x &&& x') ++ (y &&& y') ++ (n &&& n') := by
    simp only [BitVec.and_append]
  exact h

/-- The class bits of a word of four nibbles. -/
theorem class_mask (c x y n : BitVec 4) : ofNibbles c x y n &&& 0xF000 = ofNibbles c 0 0 0 := by
  rw [show (0xF000 : Word) = ofNibbles 0xF 0 0 0 from rfl, and_ofNibbles]
  have : c &&& 0xF#4 = c := by revert c; decide
  simp [this]

/-- The class and function bits of format `xy`. -/
theorem xy_mask (c x y n : BitVec 4) : ofNibbles c x y n &&& 0xF00F = ofNibbles c 0 0 n := by
  rw [show (0xF00F : Word) = ofNibbles 0xF 0 0 0xF from rfl, and_ofNibbles]
  have (c : BitVec 4) : c &&& 0xF#4 = c := by revert c; decide
  simp [this]

/-- The class and function bits of format `x`. -/
theorem x_mask (c x y n : BitVec 4) : ofNibbles c x y n &&& 0xF0FF = ofNibbles c 0 y n := by
  rw [show (0xF0FF : Word) = ofNibbles 0xF 0 0xF 0xF from rfl, and_ofNibbles]
  have (c : BitVec 4) : c &&& 0xF#4 = c := by revert c; decide
  simp [this]

theorem encNnn_fits (c : BitVec 4) (nnn : Imm12) : encNnn c nnn &&& 0xF000 = ofNibbles c 0 0 0 := by
  rw [encNnn_nibbles, class_mask]

theorem encXnn_fits (c : BitVec 4) (x : Reg) (nn : Byte) : encXnn c x nn &&& 0xF000 = ofNibbles c 0 0 0 := by
  rw [encXnn_nibbles, class_mask]

theorem encXy_fits (c : BitVec 4) (x y : Reg) (f : BitVec 4) : encXy c x y f &&& 0xF00F = ofNibbles c 0 0 f := by
  rw [encXy_nibbles, xy_mask]

theorem encX_fits (c : BitVec 4) (x : Reg) (f : Byte) :
    encX c x f &&& 0xF0FF = ofNibbles c 0 (hiNibble f) (loNibble f) := by
  rw [encX_eq, encXnn_nibbles, x_mask]

theorem cls : Statement .cls := rfl
theorem ret : Statement .ret := rfl
theorem jp (nnn : Imm12) : Statement (.jp nnn) := encNnn_fits 0x1 nnn
theorem call (nnn : Imm12) : Statement (.call nnn) := encNnn_fits 0x2 nnn
theorem seImm (x : Reg) (nn : Byte) : Statement (.seImm x nn) := encXnn_fits 0x3 x nn
theorem sneImm (x : Reg) (nn : Byte) : Statement (.sneImm x nn) := encXnn_fits 0x4 x nn
theorem seReg (x y : Reg) : Statement (.seReg x y) := encXy_fits 0x5 x y 0x0
theorem ldImm (x : Reg) (nn : Byte) : Statement (.ldImm x nn) := encXnn_fits 0x6 x nn
theorem addImm (x : Reg) (nn : Byte) : Statement (.addImm x nn) := encXnn_fits 0x7 x nn
theorem ldReg (x y : Reg) : Statement (.ldReg x y) := encXy_fits 0x8 x y 0x0
theorem or (x y : Reg) : Statement (.or x y) := encXy_fits 0x8 x y 0x1
theorem and (x y : Reg) : Statement (.and x y) := encXy_fits 0x8 x y 0x2
theorem xor (x y : Reg) : Statement (.xor x y) := encXy_fits 0x8 x y 0x3
theorem addReg (x y : Reg) : Statement (.addReg x y) := encXy_fits 0x8 x y 0x4
theorem sub (x y : Reg) : Statement (.sub x y) := encXy_fits 0x8 x y 0x5
theorem shr (x y : Reg) : Statement (.shr x y) := encXy_fits 0x8 x y 0x6
theorem subn (x y : Reg) : Statement (.subn x y) := encXy_fits 0x8 x y 0x7
theorem shl (x y : Reg) : Statement (.shl x y) := encXy_fits 0x8 x y 0xE
theorem sneReg (x y : Reg) : Statement (.sneReg x y) := encXy_fits 0x9 x y 0x0
theorem ldI (nnn : Imm12) : Statement (.ldI nnn) := encNnn_fits 0xA nnn
theorem jpV0 (nnn : Imm12) : Statement (.jpV0 nnn) := encNnn_fits 0xB nnn
theorem rnd (x : Reg) (nn : Byte) : Statement (.rnd x nn) := encXnn_fits 0xC x nn
theorem drw (x y : Reg) (n : Fin 16) : Statement (.drw x y n) := class_mask 0xD (nibbleOf x) (nibbleOf y) (nibbleOf n)
theorem skp (x : Reg) : Statement (.skp x) := encX_fits 0xE x 0x9E
theorem sknp (x : Reg) : Statement (.sknp x) := encX_fits 0xE x 0xA1
theorem ldVxDt (x : Reg) : Statement (.ldVxDt x) := encX_fits 0xF x 0x07
theorem ldVxK (x : Reg) : Statement (.ldVxK x) := encX_fits 0xF x 0x0A
theorem ldDtVx (x : Reg) : Statement (.ldDtVx x) := encX_fits 0xF x 0x15
theorem ldStVx (x : Reg) : Statement (.ldStVx x) := encX_fits 0xF x 0x18
theorem addIVx (x : Reg) : Statement (.addIVx x) := encX_fits 0xF x 0x1E
theorem ldFVx (x : Reg) : Statement (.ldFVx x) := encX_fits 0xF x 0x29
theorem ldBVx (x : Reg) : Statement (.ldBVx x) := encX_fits 0xF x 0x33
theorem ldMemVx (x : Reg) : Statement (.ldMemVx x) := encX_fits 0xF x 0x55
theorem ldVxMem (x : Reg) : Statement (.ldVxMem x) := encX_fits 0xF x 0x65

end Sys2Proof.Laws.EncodingFitsRow
end

