-- ==== Sys2Proof/Tests/Slice0.lean ====
section
/-!
SUPPORT. The model's own tests and the witnesses of its statements. Expected values are those of
spec/95_test_vectors.md (its row names stand in the comments) or of the encodings of 30_encoding.md R303 and R310;
nothing here is computed from the model. A test is one step, or one operation, on a small state.
-/

open Sys2Proof Sys2Proof.Machine

namespace Sys2Proof.Tests

/-! ## Well-formedness: raw operands that the check refuses, and those at the edge that it takes -/

theorem test_wf_refuses_register : Operand.wf (.reg 16) = false ∧ Operand.wf (.reg 15) = true := by decide
theorem test_wf_refuses_byte : Operand.wf (.byte 256) = false ∧ Operand.wf (.byte 255) = true := by decide
theorem test_wf_refuses_address : Operand.wf (.addr 4096) = false ∧ Operand.wf (.addr 4095) = true := by decide
theorem test_wf_refuses_nibble : Operand.wf (.nibble 16) = false ∧ Operand.wf (.nibble 15) = true := by decide

/-- An out-of-range operand, a wrong operand kind, a wrong count and an unknown name build no instruction. -/
theorem test_assemble_refuses :
    assemble "ADD_reg" [.reg 1, .reg 16] = none ∧ assemble "LD_imm" [.reg 1, .byte 256] = none ∧
    assemble "JP" [.addr 4096] = none ∧ assemble "DRW" [.reg 1, .reg 2, .nibble 16] = none ∧
    assemble "LD_I" [.byte 1] = none ∧ assemble "RET" [.reg 0] = none ∧ assemble "NOP" [] = none := by decide

/-- The operand order of 30_encoding.md R325. -/
theorem test_assemble_takes :
    assemble "ADD_reg" [.reg 10, .reg 11] = some (.addReg 10 11) ∧
    assemble "DRW" [.reg 1, .reg 2, .nibble 5] = some (.drw 1 2 5) ∧
    assemble "JP" [.addr 4095] = some (.jp 0xFFF) := by decide

/-! ## Decoding: one word of every row, written bit by bit from its encoding -/

theorem test_decode_control :
    decode 0b0000000011101110 = .ok .ret ∧ decode 0b0001001000110100 = .ok (.jp 0x234) ∧
    decode 0b0010101111001101 = .ok (.call 0xBCD) ∧ decode 0b0011001100010010 = .ok (.seImm 3 0x12) ∧
    decode 0b0100001110100101 = .ok (.sneImm 3 0xA5) ∧ decode 0b0101000100100000 = .ok (.seReg 1 2) ∧
    decode 0b1001001000010000 = .ok (.sneReg 2 1) ∧ decode 0b1011100000000001 = .ok (.jpV0 0x801) := by decide

theorem test_decode_alu :
    decode 0b0110101000010010 = .ok (.ldImm 0xA 0x12) ∧ decode 0b0111111100000001 = .ok (.addImm 0xF 0x01) ∧
    decode 0b1000000111110000 = .ok (.ldReg 1 0xF) ∧ decode 0b1000000111100001 = .ok (.or 1 0xE) ∧
    decode 0b1000000111010010 = .ok (.and 1 0xD) ∧ decode 0b1000000111000011 = .ok (.xor 1 0xC) ∧
    decode 0b1000101010110100 = .ok (.addReg 0xA 0xB) ∧ decode 0b1000000100100101 = .ok (.sub 1 2) ∧
    decode 0b1000001101000110 = .ok (.shr 3 4) ∧ decode 0b1000010101100111 = .ok (.subn 5 6) ∧
    decode 0b1000011110001110 = .ok (.shl 7 8) ∧ decode 0b1100001111110000 = .ok (.rnd 3 0xF0) := by decide

theorem test_decode_index :
    decode 0b1010000100100011 = .ok (.ldI 0x123) ∧ decode 0b1111001000011110 = .ok (.addIVx 2) ∧
    decode 0b1111001100101001 = .ok (.ldFVx 3) ∧ decode 0b1111010000110011 = .ok (.ldBVx 4) ∧
    decode 0b1111010101010101 = .ok (.ldMemVx 5) ∧ decode 0b1111011001100101 = .ok (.ldVxMem 6) := by decide

theorem test_decode_display :
    decode 0b0000000011100000 = .ok .cls ∧ decode 0b1101000100100101 = .ok (.drw 1 2 5) := by decide

theorem test_decode_keys_timers :
    decode 0b1110001010011110 = .ok (.skp 2) ∧ decode 0b1110001110100001 = .ok (.sknp 3) ∧
    decode 0b1111010000000111 = .ok (.ldVxDt 4) ∧ decode 0b1111010100001010 = .ok (.ldVxK 5) ∧
    decode 0b1111011000010101 = .ok (.ldDtVx 6) ∧ decode 0b1111011100011000 = .ok (.ldStVx 7) := by decide

/-- E1–E9: words of no row. -/
theorem test_decode_illegal :
    ([0x0000, 0x00E1, 0x0123, 0x01E0, 0x5121, 0x9121, 0x8008, 0x800D, 0x800F, 0xE09F, 0xE0A2, 0xE000, 0xF000, 0xF0FF,
      0xF056] : List Word).all (fun op => decode op = .error (.unknownOpcode op)) = true := by decide

/-- Bytes lie big-endian, and the rest is given back. -/
theorem test_decode_bytes :
    decodeBytes [0x8A, 0xB4, 0x77] = .ok (.addReg 0xA 0xB, [0x77]) ∧ decodeBytes [0x8A] = .error .truncated ∧
    decodeTableWord 16 0x8AB4 = some (.addReg 0xA 0xB) ∧ decodeTableWord 16 0x8AB8 = none := by decide

/-! ## Running one instruction -/

/-- The state one step leaves when the word stands at pc. -/
def after (s : State) (op : Nat) : Option State :=
  match step (s.withFetchWord 16 op) with
  | .next t => some t
  | .fault _ | .refused _ => none

/-- The display with exactly these pixels set. -/
def pixels (js : List Nat) : Display :=
  Vector.ofFn fun y : Fin 32 => BitVec.ofNat 64 ((js.filter fun j => j / 64 = y.val).map fun j => 2 ^ (j % 64)).sum

/-- The state after `initialize`, with VF-last replaced by VF-first (ResultLast). -/
def resultLast : State := { State.reset with cfg := { Config.default with vfOrder := .resultLast } }

/-- The state after `initialize`, with `STEP_DECREMENTS_TIMERS`. -/
def stepTicks : State := { State.reset with cfg := { Config.default with stepDecrementsTimers := true } }

/-- One key pressed on top of a key vector. -/
def press (k : Fin 16) (s : State) : State := { s with keys := s.keys.set k true }

/-! ### Arithmetic, logic, shifts -/

/-- W4. -/
theorem test_ldImm : (after .reset 0x6A12).map (fun t => (t.reg 0xA, t.pc)) = some (0x12, 0x202) := by decide

/-- W5b. -/
theorem test_addImm_wraps :
    (after ((State.reset.setReg 0xA 0xFF).setReg 15 0x5C) 0x7A01).map (fun t => (t.reg 0xA, t.reg 15)) =
      some (0x00, 0x5C) := by decide

/-- A3. -/
theorem test_ldReg : (after (State.reset.setReg 2 0x5A) 0x8120).map (fun t => (t.reg 1, t.reg 2)) =
    some (0x5A, 0x5A) := by decide

/-- A4. -/
theorem test_or : (after (((State.reset.setReg 1 0xF0).setReg 2 0x0F).setReg 15 0x33) 0x8121).map
    (fun t => (t.reg 1, t.reg 15)) = some (0xFF, 0x33) := by decide

/-- A5. -/
theorem test_and : (after ((State.reset.setReg 1 0xF3).setReg 2 0x3F) 0x8122).map (·.reg 1) = some 0x33 := by decide

/-- A6. -/
theorem test_xor : (after ((State.reset.setReg 1 0xFF).setReg 2 0x0F) 0x8123).map (·.reg 1) = some 0xF0 := by decide

/-- A8 and A9. -/
theorem test_addReg :
    (after ((State.reset.setReg 1 0x80).setReg 2 0x7F) 0x8124).map (fun t => (t.reg 1, t.reg 15)) = some (0xFF, 0) ∧
    (after ((State.reset.setReg 1 0x80).setReg 2 0x80) 0x8124).map (fun t => (t.reg 1, t.reg 15)) = some (0x00, 1) := by
  decide

/-- A11: both orders of the two writes to VF. -/
theorem test_addReg_into_flag :
    (after ((State.reset.setReg 15 0xFF).setReg 1 0x01) 0x8F14).map (·.reg 15) = some 1 ∧
    (after ((resultLast.setReg 15 0xFF).setReg 1 0x01) 0x8F14).map (·.reg 15) = some 0 := by decide

/-- A14 and A15. -/
theorem test_sub :
    (after ((State.reset.setReg 1 0x03).setReg 2 0x05) 0x8125).map (fun t => (t.reg 1, t.reg 15)) = some (0xFE, 0) ∧
    (after ((State.reset.setReg 1 0x07).setReg 2 0x07) 0x8125).map (fun t => (t.reg 1, t.reg 15)) = some (0x00, 1) := by
  decide

/-- A17. -/
theorem test_sub_into_flag :
    (after ((State.reset.setReg 15 0x10).setReg 2 0x01) 0x8F25).map (·.reg 15) = some 1 ∧
    (after ((resultLast.setReg 15 0x10).setReg 2 0x01) 0x8F25).map (·.reg 15) = some 0x0F := by decide

/-- A19: Y is ignored. -/
theorem test_shr : (after ((State.reset.setReg 1 0x04).setReg 2 0x99) 0x8126).map
    (fun t => (t.reg 1, t.reg 2, t.reg 15)) = some (0x02, 0x99, 0) := by decide

/-- A20. -/
theorem test_shr_of_flag :
    (after (State.reset.setReg 15 0x05) 0x8F06).map (·.reg 15) = some 1 ∧
    (after (resultLast.setReg 15 0x05) 0x8F06).map (·.reg 15) = some 0x02 := by decide

/-- A21 and A22. -/
theorem test_subn :
    (after ((State.reset.setReg 1 0x03).setReg 2 0x05) 0x8127).map (fun t => (t.reg 1, t.reg 15)) = some (0x02, 1) ∧
    (after ((State.reset.setReg 1 0x05).setReg 2 0x03) 0x8127).map (fun t => (t.reg 1, t.reg 15)) = some (0xFE, 0) := by
  decide

/-- A24 and A25. -/
theorem test_shl :
    (after (State.reset.setReg 1 0x81) 0x810E).map (fun t => (t.reg 1, t.reg 15)) = some (0x02, 1) ∧
    (after ((State.reset.setReg 1 0x40).setReg 2 0xFF) 0x812E).map (fun t => (t.reg 1, t.reg 2, t.reg 15)) =
      some (0x80, 0xFF, 0) := by decide

/-- A27 with the draw of the hypothesis: the low nibble of 0xA7. -/
theorem test_rnd (h : Config.randByte 0 = 0xA7) :
    (exec (.rnd 3 0x0F) .reset) = .next { State.reset with v := State.reset.v.set 3 0x07, pc := 0x202, draws := 1 } := by
  simp only [exec, execRnd, State.rand]
  rw [show Config.randByte State.reset.draws = 0xA7 from h]
  rfl

/-- A28: a mask of 0 gives 0 whatever the draw. -/
theorem test_rnd_masked : (match exec (.rnd 3 0x00) (State.reset.setReg 3 9) with
    | .next t => t.reg 3 = 0
    | .fault _ | .refused _ => False) := by
  show ((State.reset.setReg 3 9).rand &&& 0) = 0
  simp

/-! ### Control -/

/-- F1. -/
theorem test_call : (after (State.reset.setPc 0x204) 0x2210).map (fun t => (t.stack[0], t.sp, t.pc)) =
    some (0x206, 1, 0x210) := by decide

/-- F5: the full stack. -/
theorem test_call_overflow :
    (after { State.reset with sp := 16, pc := 0x300 } 0x2400).map (fun t => (t.status, t.fault, t.sp, t.pc)) =
      some (.faulted, ⟨.stackOverflow, 0x300, 0x2400, 0x0400⟩, 16, 0x300) := by decide

/-- F2: the slot keeps its value. -/
theorem test_ret :
    (after { State.reset with sp := 1, stack := State.reset.stack.set 0 0x206 } 0x00EE).map
      (fun t => (t.pc, t.sp, t.stack[0])) = some (0x206, 0, 0x206) := by decide

/-- F3. -/
theorem test_ret_underflow :
    (after .reset 0x00EE).map (fun t => (t.status, t.fault, t.sp, t.pc)) =
      some (.faulted, ⟨.stackUnderflow, 0x200, 0x00EE, 0x0000⟩, 0, 0x200) := by decide

/-- F6 and F7. -/
theorem test_jp :
    (after .reset 0x1204).map (fun t => (t.pc, t.stepResult)) = some (0x204, .continue) ∧
    (after (State.reset.setPc 0x300) 0x1300).map (fun t => (t.pc, t.stepResult)) = some (0x300, .halted) := by decide

/-- F9 and F11: no halt, and no truncation to 12 bits. -/
theorem test_jpV0 :
    (after .reset 0xB200).map (fun t => (t.pc, t.stepResult)) = some (0x200, .continue) ∧
    (after (State.reset.setReg 0 0xFF) 0xBFFF).map (·.pc) = some 0x10FE := by decide

/-- F12. -/
theorem test_seImm : (after (State.reset.setReg 3 0x12) 0x3312).map (·.pc) = some 0x204 ∧
    (after (State.reset.setReg 3 0x13) 0x3312).map (·.pc) = some 0x202 := by decide

/-- F13. -/
theorem test_sneImm : (after (State.reset.setReg 3 0x12) 0x4312).map (·.pc) = some 0x202 ∧
    (after State.reset 0x4312).map (·.pc) = some 0x204 := by decide

/-- F14; unequal registers do not skip. -/
theorem test_seReg :
    (after (((State.reset.setReg 1 7).setReg 2 7).setPc 0x300) 0x5120).map (·.pc) = some 0x304 ∧
    (after ((State.reset.setReg 1 7).setPc 0x300) 0x5120).map (·.pc) = some 0x302 := by decide

/-- F16. -/
theorem test_sneReg :
    (after (((State.reset.setReg 1 7).setReg 2 8).setPc 0x300) 0x9120).map (·.pc) = some 0x304 ∧
    (after (((State.reset.setReg 1 7).setReg 2 7).setPc 0x300) 0x9120).map (·.pc) = some 0x302 := by decide

/-! ### Index and memory -/

/-- M1. -/
theorem test_ldI : (after (State.reset.setIdx 0xABCD) 0xA300).map (·.idx) = some 0x0300 := by decide

/-- M2 and M3. -/
theorem test_addIVx :
    (after ((State.reset.setReg 1 1).setIdx 0x0FFE) 0xF11E).map (fun t => (t.idx, t.reg 15)) = some (0x0FFF, 0) ∧
    (after ((State.reset.setReg 1 1).setIdx 0x0FFF) 0xF11E).map (fun t => (t.idx, t.reg 15)) = some (0x1000, 1) := by
  decide

/-- M5 and M6: the wrap at 16 bits, and X = 0xF. -/
theorem test_addIVx_edges :
    (after ((State.reset.setReg 1 1).setIdx 0xFFFF) 0xF11E).map (fun t => (t.idx, t.reg 15)) = some (0x0000, 1) ∧
    (after ((State.reset.setReg 15 0x10).setIdx 0x0FF0) 0xFF1E).map (fun t => (t.idx, t.reg 15)) =
      some (0x1000, 1) := by decide

/-- M7 and M8. -/
theorem test_ldFVx : (after (State.reset.setReg 2 0x0A) 0xF229).map (·.idx) = some 0x0032 ∧
    (after (State.reset.setReg 2 0xFF) 0xF229).map (·.idx) = some 0x04FB := by decide

/-- M9 and M11: three digits, at the top of memory too, I kept. -/
theorem test_ldBVx :
    (after ((State.reset.setReg 5 0x7B).setIdx 0x300) 0xF533).map (fun t => (t.loadBytes 0x300 3, t.idx)) =
      some ([1, 2, 3], 0x300) ∧
    (after ((State.reset.setReg 5 0x7B).setIdx 0xFFD) 0xF533).map (·.loadBytes 0xFFD 3) = some [1, 2, 3] := by decide

/-- M12. -/
theorem test_ldBVx_out_of_range :
    (after ((State.reset.setReg 5 0x7B).setIdx 0xFFE) 0xF533).map (fun t => (t.fault, t.byteAt 0xFFE, t.pc)) =
      some (⟨.memWriteOutOfRange, 0x200, 0xF533, 0x1000⟩, 0, 0x200) := by decide

/-- M13 and M17. -/
theorem test_ldMemVx :
    (after (((State.reset.setReg 0 0x11).setReg 1 0x22).setIdx 0x300) 0xF155).map
      (fun t => (t.loadBytes 0x300 3, t.idx)) = some ([0x11, 0x22, 0], 0x302) ∧
    (after (((State.reset.setReg 0 0x11).setReg 1 0x22).setIdx 0xFFE) 0xF155).map
      (fun t => (t.loadBytes 0xFFE 2, t.idx)) = some ([0x11, 0x22], 0x1000) := by decide

/-- M18. -/
theorem test_ldMemVx_out_of_range :
    (after ((State.reset.setReg 0 0x11).setIdx 0xFFE) 0xF255).map (fun t => (t.fault, t.byteAt 0xFFE, t.idx)) =
      some (⟨.memWriteOutOfRange, 0x200, 0xF255, 0x1000⟩, 0, 0xFFE) := by decide

/-- M19. -/
theorem test_ldVxMem :
    (after ((State.reset.storeBytes 0x300 [1, 2, 3, 4]).setIdx 0x300) 0xF265).map
      (fun t => (t.v.toList.take 4, t.idx)) = some ([1, 2, 3, 0], 0x300) := by decide

/-- M22 and M23. -/
theorem test_ldVxMem_out_of_range :
    (after (State.reset.setIdx 0xFFF) 0xF165).map (fun t => (t.fault.kind, t.fault.info)) =
      some (.memReadOutOfRange, 0x1000) ∧
    (after (State.reset.setIdx 0x1005) 0xF065).map (fun t => (t.fault.kind, t.fault.info)) =
      some (.memReadOutOfRange, 0x1005) := by decide

/-! ### Display -/

/-- D1 and D2. -/
theorem test_cls :
    (after { State.reset with disp := pixels [0, 2047] } 0x00E0).map (fun t => (t.disp, t.drawFlag)) = some (pixels [], true) ∧
    (after .reset 0x00E0).map (·.drawFlag) = some true := by decide

/-- D3: glyph 0 at the origin; D5 and D11: the wrap at both edges, and a collision. -/
theorem test_drw :
    (after .reset 0xD015).map (fun t => (t.disp, t.reg 15, t.drawFlag)) =
      some (pixels [0, 1, 2, 3, 64, 67, 128, 131, 192, 195, 256, 257, 258, 259], 0, true) ∧
    (after ((((State.reset.setReg 0 62).setReg 1 31).storeBytes 0x300 [0xC0, 0x81]).setIdx 0x300) 0xD012).map
      (fun t => (t.disp, t.reg 15)) = some (pixels [2046, 2047, 62, 5], 0) ∧
    (after (({ State.reset with disp := pixels [0] }.storeBytes 0x300 [0xC0]).setIdx 0x300) 0xD011).map
      (fun t => (t.disp, t.reg 15)) = some (pixels [1], 1) := by decide

/-! ### Keys and timers -/

/-- K1 and K2. -/
theorem test_skp : (after (((press 5 State.reset).setReg 2 5).setPc 0x300) 0xE29E).map (·.pc) = some 0x304 ∧
    (after (State.reset.setReg 2 5) 0xE29E).map (·.pc) = some 0x202 := by decide

/-- K5. -/
theorem test_skp_key_out_of_range :
    (after ((State.reset.setReg 2 0x10).setPc 0x300) 0xE29E).map (·.fault) =
      some ⟨.keyIndexOutOfRange, 0x300, 0xE29E, 0x0010⟩ := by decide

/-- K3 and K4. -/
theorem test_sknp : (after (State.reset.setReg 2 5) 0xE2A1).map (·.pc) = some 0x204 ∧
    (after ((press 5 State.reset).setReg 2 5) 0xE2A1).map (·.pc) = some 0x202 := by decide

/-- K6. -/
theorem test_sknp_key_out_of_range :
    (after (State.reset.setReg 2 0xFF) 0xE2A1).map (fun t => (t.fault.kind, t.fault.info)) =
      some (.keyIndexOutOfRange, 0x00FF) := by decide

/-- K7. -/
theorem test_ldVxDt : (after (State.reset.setDt 0x3C) 0xF307).map (·.reg 3) = some 0x3C := by decide

/-- K8 and T7: a wait changes nothing, the timers neither. -/
theorem test_ldVxK_waits :
    after .reset 0xF30A = some (State.reset.withFetchWord 16 0xF30A) ∧
    (after (stepTicks.setDt 5) 0xF30A).map (fun t => (t.dt, t.pc)) = some (5, 0x200) := by decide

/-- K9. -/
theorem test_ldVxK_lowest : (after (press 9 (press 7 State.reset)) 0xF30A).map (fun t => (t.reg 3, t.pc)) =
    some (0x07, 0x202) := by decide

/-- K11 and T6: with the per-step decrement the new value counts down at once. -/
theorem test_ldDtVx : (after (State.reset.setReg 4 0x3C) 0xF415).map (·.dt) = some 0x3C ∧
    (after (stepTicks.setReg 4 0x3C) 0xF415).map (·.dt) = some 0x3B := by decide

/-- K12. -/
theorem test_ldStVx : (after (State.reset.setReg 4 0x02) 0xF418).map (·.st) = some 0x02 := by decide

/-! ### The step and the host's operations -/

/-- E1: an illegal word. -/
theorem test_illegal_word : (after .reset 0x0000).map (fun t => (t.status, t.fault, t.pc)) =
    some (.faulted, ⟨.unknownOpcode, 0x200, 0, 0⟩, 0x200) := by decide

/-- E11, its second step: a fetch at 0x1000. -/
theorem test_fetch_out_of_range : ∃ t, step (State.reset.setPc 0x1000) = .next t ∧
    t.fault = ⟨.fetchOutOfRange, 0x1000, 0x0000, 0x1000⟩ := ⟨_, rfl, by decide⟩

/-- E13: an odd pc is legal. -/
theorem test_odd_pc : (after (State.reset.setPc 0x201) 0x6123).map (fun t => (t.reg 1, t.pc)) =
    some (0x23, 0x203) := by decide

/-- T8 and T9: a halting step decrements, a faulting one does not. -/
theorem test_step_decrement : (after (stepTicks.setDt 5) 0x1200).map (fun t => (t.status, t.dt)) = some (.halted, 4) ∧
    (after (stepTicks.setDt 5) 0x00EE).map (fun t => (t.status, t.dt)) = some (.faulted, 5) := by decide

/-- The output of an operation. -/
def outputOf (s : State) (op : HostOp) : Option OpOutput :=
  match s.applyOp op with
  | .next r => some r.2
  | .fault _ | .refused _ => none

/-- T1–T3: the beep of a tick; T10: the beep of a step. -/
theorem test_beeps :
    outputOf (State.reset.setSt 1) .tickTimers = some (.beep true) ∧
    outputOf (State.reset.setDt 5) .tickTimers = some (.beep false) ∧
    outputOf ((stepTicks.setSt 1).withFetchWord 16 0x6A12) .step = some (.stepped .continue true) := by decide

/-- B3: a short load keeps the bytes after it. -/
theorem test_load_short :
    outputOf (State.reset.storeByte 0x205 0x77) (.loadProgram [1, 2, 3]) = some (.byteCount 3) ∧
    ((State.reset.storeByte 0x205 0x77).loadProgram [1, 2, 3]).1.loadBytes 0x200 6 = [1, 2, 3, 0, 0, 0x77] := by decide

/-- W2 and W3: the largest image and one byte more. -/
theorem test_load_limits :
    State.reset.loadProgram (List.replicate 3585 7) = (State.reset, .imageTooLarge) ∧
    (State.reset.loadProgram (List.replicate 3584 7)).2 = .byteCount 3584 := by
  constructor
  · rw [State.loadProgram, List.length_replicate, if_pos (by decide)]
  · rw [State.loadProgram, List.length_replicate, if_neg (by decide)]

/-- B5: glyph 1 and glyph F of the default font. -/
theorem test_font : State.reset.loadBytes 0x005 5 = [0x20, 0x60, 0x20, 0x20, 0x70] ∧
    State.reset.loadBytes 0x04B 5 = [0xF0, 0x80, 0xF0, 0x80, 0x80] := by decide

/-- W9 through the operations, from a block that was never initialised. -/
theorem test_load_and_halt :
    ∃ b, runOps [.initializeBlock, .loadProgram [0x12, 0x00], .step, .hasHalted] (.uninitialised .default) =
      .next (b, [.nothing, .byteCount 2, .stepped .halted false, .flag true]) := ⟨_, rfl⟩

/-- Log entry 11: a first draw that meets set pixels leaves nothing for the second to collide with, although the
sprite has a set bit. R701 gives VF = 1 on the first draw and VF = 0 on the second. -/
theorem test_second_draw_need_not_collide :
    (after (({ State.reset with disp := pixels [0] }.storeBytes 0x300 [0x80]).setIdx 0x300) 0xD231).map
      (fun t => (t.disp, t.reg 15, (after (t.setPc 0x200) 0xD231).map fun u => (u.disp, u.reg 15))) =
      some (pixels [], 1, some (pixels [0], 0)) := by decide

/-! ## Witnesses: a concrete state that meets all hypotheses of each statement that has some -/

/-- A state with a full stack. -/
def fullStack : State := { State.reset with sp := 16 }

/-- CallAndReturn, its first clause at both ends of the stack. -/
theorem witness_call : (State.reset.sp.val < 16) ∧ ({ State.reset with sp := 15 } : State).sp.val < 16 := by decide

/-- CallAndReturn, its second clause. -/
theorem witness_return : 0 < ({ State.reset with sp := 1 } : State).sp.val ∧ 0 < fullStack.sp.val := by decide

/-- StackFaults, both clauses. -/
theorem witness_stack_faults : fullStack.sp.val = 16 ∧ State.reset.sp.val = 0 := by decide

theorem witness_return_comes_back : ∃ nnn : Imm12, ∃ s t u v : State, s.sp.val < 16 ∧ exec (.call nnn) s = .next t ∧
    u.stack = t.stack ∧ u.sp = t.sp ∧ exec .ret u = .next v :=
  ⟨0x210, { State.reset with sp := 15 }, _, _, _, by decide, rfl, rfl, rfl, rfl⟩

/-- PcUpdateByInstruction, with a fault and without. -/
theorem witness_pc_update : (∃ i s t, exec i s = .next t ∧ s.status = .running ∧ t.status = .faulted) ∧
    ∃ i s t, exec i s = .next t ∧ s.status = .running ∧ t.status ≠ .faulted :=
  ⟨⟨.ret, .reset, _, rfl, rfl, rfl⟩, ⟨.cls, .reset, _, rfl, rfl, by decide⟩⟩

/-- BcdDigitsStored at the highest address it covers. -/
theorem witness_bcd : (State.reset.setIdx 0xFFD).idx.toNat + 2 ≤ 0xFFF := by decide

/-- RegisterDump and RegisterLoad at the highest address they cover. -/
theorem witness_dump_and_load : (State.reset.setIdx 0xFF0).idx.toNat + (15 : Reg).val ≤ 0xFFF := by decide

/-- DumpThenLoadRestoresRegisters at the highest address, the load from registers unlike those dumped. -/
theorem witness_dump_then_load : ∃ (x : Reg) (s t w : State), s.idx.toNat + x.val ≤ 0xFFF ∧
    exec (.ldMemVx x) s = .next t ∧ w.mem = t.mem ∧ w.cfg = t.cfg ∧ w.idx = s.idx ∧ w.v[(0 : Reg)] ≠ s.v[(0 : Reg)] :=
  ⟨15, (State.reset.setReg 0 7).setIdx 0xFF0, _, State.setReg 0 9 { State.reset with idx := 0xFF0, mem := [(0xFF0, 7)] },
    by decide, rfl, by decide, rfl, rfl, by decide⟩

/-- The forms of MemoryBoundsFaults. -/
def boundsForm (i : Instr) (kind : FaultKind) (count : Nat) : Prop :=
  (∃ x, i = .ldBVx x ∧ kind = .memWriteOutOfRange ∧ count = 3) ∨
  (∃ x, i = .ldMemVx x ∧ kind = .memWriteOutOfRange ∧ count = x.val + 1) ∨
  (∃ x, i = .ldVxMem x ∧ kind = .memReadOutOfRange ∧ count = x.val + 1) ∨
  (∃ x y n, i = .drw x y n ∧ kind = .memReadOutOfRange ∧ count = n.val)

/-- MemoryBoundsFaults, the fault of each of the four forms at its first address beyond memory. -/
theorem witness_bounds_fault :
    (boundsForm (.ldBVx 5) .memWriteOutOfRange 3 ∧ 2 < 3 ∧ (State.reset.setIdx 0xFFE).idx.toNat + 2 > 0xFFF ∧
      ∀ j < 2, (State.reset.setIdx 0xFFE).idx.toNat + j ≤ 0xFFF) ∧
    (boundsForm (.ldMemVx 15) .memWriteOutOfRange 16 ∧ 15 < 16 ∧ (State.reset.setIdx 0xFF1).idx.toNat + 15 > 0xFFF ∧
      ∀ j < 15, (State.reset.setIdx 0xFF1).idx.toNat + j ≤ 0xFFF) ∧
    (boundsForm (.ldVxMem 0) .memReadOutOfRange 1 ∧ 0 < 1 ∧ (State.reset.setIdx 0x1005).idx.toNat + 0 > 0xFFF ∧
      ∀ j < 0, (State.reset.setIdx 0x1005).idx.toNat + j ≤ 0xFFF) ∧
    (boundsForm (.drw 0 1 15) .memReadOutOfRange 15 ∧ 1 < 15 ∧ (State.reset.setIdx 0xFFF).idx.toNat + 1 > 0xFFF ∧
      ∀ j < 1, (State.reset.setIdx 0xFFF).idx.toNat + j ≤ 0xFFF) :=
  ⟨⟨.inl ⟨5, rfl, rfl, rfl⟩, by decide⟩, ⟨.inr (.inl ⟨15, rfl, rfl, rfl⟩), by decide⟩,
    ⟨.inr (.inr (.inl ⟨0, rfl, rfl, rfl⟩)), by decide⟩, ⟨.inr (.inr (.inr ⟨0, 1, 15, rfl, rfl, rfl⟩)), by decide⟩⟩

/-- MemoryBoundsFaults, its clause without a fault, N = 0 far beyond memory among it. -/
theorem witness_bounds_kept : (∀ k < 3, (State.reset.setIdx 0xFFD).idx.toNat + k ≤ 0xFFF) ∧
    ∀ k < (0 : Fin 16).val, (State.reset.setIdx 0xFFFF).idx.toNat + k ≤ 0xFFF := by decide

theorem witness_stored_code : ∃ (x : Reg) (s t : State) (k : Nat), k + 1 ≤ x.val ∧ s.idx.toNat + x.val ≤ 0xFFF ∧
    s.pc.toNat ≤ 0xFFE ∧ exec (.ldMemVx x) s = .next t ∧ s.pc.toNat + 2 = s.idx.toNat + k :=
  ⟨1, State.reset.setIdx 0x202, _, 0, by decide, by decide, by decide, rfl, by decide⟩

/-- DrawFlipsCoveredPixels: no row far beyond memory, and one row at the last byte. A pixel under a set bit, and one
that is not; a collision, and none. -/
theorem witness_draw : ((0 : Fin 16).val = 0 ∨ (State.reset.setIdx 0xFFFF).idx.toNat + (0 : Fin 16).val ≤ 0x1000) ∧
    ((1 : Fin 16).val = 0 ∨ (State.reset.setIdx 0xFFF).idx.toNat + (1 : Fin 16).val ≤ 0x1000) ∧
    State.reset.spriteCovers 0 1 5 0 0 ∧ ¬ State.reset.spriteCovers 0 1 5 4 0 ∧
    ({ State.reset with disp := pixels [0] } : State).pixelAt 0 0 = true ∧ State.reset.pixelAt 0 0 = false := by
  refine ⟨by decide, by decide, ⟨0, by decide, 0, by decide, by decide⟩, ?_, by decide, by decide⟩
  unfold State.spriteCovers
  decide

theorem witness_draw_twice : ∃ (x y x' y' : Reg) (n : Fin 16) (s t u : State),
    (n.val = 0 ∨ s.idx.toNat + n.val ≤ 0x1000) ∧ exec (.drw x y n) s = .next t ∧ t.v[x'] = s.v[x] ∧
    t.v[y'] = s.v[y] ∧ exec (.drw x' y' n) t = .next u :=
  ⟨0, 1, 0, 1, 5, .reset, _, _, by decide, rfl, rfl, rfl, rfl⟩

/-- SecondDrawReportsSetBitAfterCleanFirst, glyph 0 on a clear display. -/
theorem witness_second_draw_after_clean : ∃ (x y x' y' : Reg) (n : Fin 16) (s t u : State),
    (n.val = 0 ∨ s.idx.toNat + n.val ≤ 0x1000) ∧ exec (.drw x y n) s = .next t ∧ t.v[15] = 0 ∧ t.v[x'] = s.v[x] ∧
    t.v[y'] = s.v[y] ∧ exec (.drw x' y' n) t = .next u ∧
    ∃ r < n.val, ∃ c < 8, (s.byteAt (s.idx.toNat + r)).getLsbD c = true :=
  ⟨0, 1, 0, 1, 5, .reset, _, _, by decide, rfl, by decide, rfl, rfl, rfl, 0, by decide, 7, by decide, by decide⟩

theorem witness_display_changes : ∃ i s t, exec i s = .next t ∧ t.disp ≠ s.disp ∧ t.drawFlag ≠ s.drawFlag :=
  ⟨.cls, { State.reset with disp := pixels [5] }, _, rfl, by decide, by decide⟩

/-- SkipOnKey: the last key, and the first value that is none. -/
theorem witness_skip_on_key : ((State.reset.setReg 2 15).v[(2 : Reg)]).toNat < 16 ∧
    16 ≤ ((State.reset.setReg 2 16).v[(2 : Reg)]).toNat := by decide

theorem witness_key_wait_takes : (press 15 State.reset).keys[(15 : Fin 16)] = true ∧
    ∀ j : Fin 16, j < 15 → (press 15 State.reset).keys[j] = false := by decide

theorem witness_key_wait : ∃ (x : Reg) (s : State), s.status = .running ∧ s.pc.toNat ≤ 0xFFE ∧
    decode (s.byteAt s.pc.toNat ++ s.byteAt (s.pc.toNat + 1)) = .ok (.ldVxK x) ∧
    ∀ k : Fin 16, s.keys[k] = false :=
  ⟨3, (stepTicks.setDt 5).withFetchWord 16 0xF30A, by decide, by decide, by decide, by decide⟩

/-- SoundTimerIsNeverRead, its second clause: each timer changes in some instruction. -/
theorem witness_timer_changes : (∃ i s t, exec i s = .next t ∧ t.st ≠ s.st) ∧ ∃ i s t, exec i s = .next t ∧ t.dt ≠ s.dt :=
  ⟨⟨.ldStVx 4, State.reset.setReg 4 2, _, rfl, by decide⟩, ⟨.ldDtVx 4, State.reset.setReg 4 2, _, rfl, by decide⟩⟩

theorem witness_encode_of_decode : decode 0xFF65 = .ok (.ldVxMem 15) := by decide

theorem witness_illegal_word : ∃ (s : State) (op : Word), s.status = .running ∧ s.pc.toNat ≤ 0xFFE ∧
    s.byteAt s.pc.toNat ++ s.byteAt (s.pc.toNat + 1) = op ∧ decode op = .error (.unknownOpcode op) :=
  ⟨State.reset.withFetchWord 16 0x5121, 0x5121, by decide, by decide, by decide, by decide⟩

/-- StepRunsDecodedInstruction at the last address with two bytes, with and without the per-step decrement. -/
theorem witness_step_runs : (∃ (i : Instr) (s t : State), s.status = .running ∧ s.pc.toNat ≤ 0xFFE ∧
      decode (s.byteAt s.pc.toNat ++ s.byteAt (s.pc.toNat + 1)) = .ok i ∧ exec i s = .next t ∧
      s.cfg.stepDecrementsTimers = true ∧ t.status ≠ .faulted) ∧
    ∃ (i : Instr) (s t : State), s.status = .running ∧ s.pc.toNat ≤ 0xFFE ∧
      decode (s.byteAt s.pc.toNat ++ s.byteAt (s.pc.toNat + 1)) = .ok i ∧ exec i s = .next t ∧
      s.cfg.stepDecrementsTimers = false :=
  ⟨⟨.ldImm 0 1, (stepTicks.setPc 0xFFE).withFetchWord 16 0x6001, _, by decide, by decide, by decide, rfl, by decide,
      by decide⟩,
    ⟨.ldImm 0 1, (State.reset.setPc 0xFFE).withFetchWord 16 0x6001, _, by decide, by decide, by decide, rfl, by decide⟩⟩

theorem witness_fetch_beyond : (State.reset.setPc 0xFFF).status = .running ∧
    0xFFF ≤ (State.reset.setPc 0xFFF).pc.toNat := by decide

/-- StepAlwaysAnswersNext, its clause on a stopped block. -/
theorem witness_stopped : State.reset.halt.status ≠ .running := by decide

/-- FaultIsPrecise, both sides of the fetch limit. -/
theorem witness_fault_precise :
    (∃ s t : State, s.status = .running ∧ step s = .next t ∧ t.status = .faulted ∧ s.pc.toNat ≤ 0xFFE) ∧
    ∃ s t : State, s.status = .running ∧ step s = .next t ∧ t.status = .faulted ∧ 0xFFF ≤ s.pc.toNat :=
  ⟨⟨.reset, _, by decide, rfl, by decide, by decide⟩, ⟨State.reset.setPc 0xFFF, _, by decide, rfl, by decide, by decide⟩⟩

theorem witness_listed_fault : ∃ (i : Instr) (s t : State), s.status ≠ .faulted ∧ exec i s = .next t ∧
    t.status = .faulted := ⟨.skp 2, State.reset.setReg 2 16, _, by decide, rfl, by decide⟩

theorem witness_self_jump : ∃ s t : State, s.status = .running ∧ step s = .next t ∧ t.status = .halted :=
  ⟨State.reset.withFetchWord 16 0x1200, _, by decide, rfl, by decide⟩

/-- The invariant's clauses at their bounds: pc and a return address at their largest, and a faulted block. -/
theorem witness_invariant : ∃ s t : State, s.Inv ∧ step s = .next t :=
  ⟨{ State.reset with pc := 0x10FE, sp := 1, stack := State.reset.stack.set 0 0x1000 }, _,
    ⟨by decide, by decide, by decide, by decide, by decide, by decide⟩, rfl⟩

theorem witness_reachable : Reachable (.ready State.reset) :=
  .op (o := .initializeBlock) (.start .default) rfl

theorem witness_canonical : ∃ s t : State, s.cfg.font = t.cfg.font ∧ Memory.wf s.cfg.font s.mem ∧
    Memory.wf t.cfg.font t.mem ∧ (∀ a < 0x1000, s.byteAt a = t.byteAt a) ∧ s.mem ≠ [] :=
  ⟨State.reset.storeByte 0x300 7, (State.reset.storeByte 0x301 9).storeByte 0x300 7 |>.storeByte 0x301 0,
    by decide, by decide, by decide, fun _ _ => by rw [show ((State.reset.storeByte 0x301 9).storeByte 0x300 7
      |>.storeByte 0x301 0) = State.reset.storeByte 0x300 7 from by decide], by decide⟩

/-- StackChangesOnlyByCallAndReturn: the last push and the first pop. -/
theorem witness_stack_changes :
    (∃ i s t, exec i s = .next t ∧ t.sp ≠ s.sp ∧ (∃ nnn, i = .call nnn) ∧ s.sp.val < 16) ∧
    ∃ i s t, exec i s = .next t ∧ t.sp ≠ s.sp ∧ i = .ret ∧ 0 < s.sp.val :=
  ⟨⟨.call 0x210, { State.reset with sp := 15 }, _, rfl, by decide, ⟨_, rfl⟩, by decide⟩,
    ⟨.ret, fullStack, _, rfl, by decide, rfl, by decide⟩⟩

/-- FlagRegisterWriters: a flag written, and VF as a destination. -/
theorem witness_flag_writers : (∃ i s t, exec i s = .next t ∧ t.v[15] ≠ s.v[15] ∧ i.hasDest 15 = false) ∧
    ∃ i s t, exec i s = .next t ∧ t.v[15] ≠ s.v[15] ∧ i.writesFlag = false :=
  ⟨⟨.shr 1 2, State.reset.setReg 1 5, _, rfl, by decide, by decide⟩, ⟨.ldImm 15 9, .reset, _, rfl, by decide, by decide⟩⟩

theorem witness_register_kept : ∃ i s t, ∃ r : Reg, exec i s = .next t ∧ i.hasDest r = false ∧
    (i.writesFlag = false ∨ r ≠ 15) := ⟨.addReg 1 2, .reset, _, 3, rfl, by decide, by decide⟩

theorem witness_unread_register : (Instr.shr 1 2).readsReg 2 = false := by decide

theorem witness_memory_changes : ∃ i s t, ∃ a, exec i s = .next t ∧ State.byteAt t a ≠ State.byteAt s a :=
  ⟨.ldMemVx 0, (State.reset.setReg 0 7).setIdx 0xFFF, _, 0xFFF, rfl, by decide⟩

theorem witness_keys_kept : ∃ s t : State, step s = .next t ∧ t ≠ s := ⟨.reset, _, rfl, by decide⟩

/-- TickDecrementsBothTimers, its second clause. -/
theorem witness_committed : ∃ (i : Instr) (s t : State), s.cfg.stepDecrementsTimers = true ∧ committed i s t = true :=
  ⟨.cls, stepTicks, stepTicks, by decide, by decide⟩

theorem witness_tick_commutes : ∀ x, (Instr.cls) ≠ .ldVxDt x ∧ Instr.cls ≠ .ldDtVx x ∧ Instr.cls ≠ .ldStVx x := by
  decide

/-- StepBeepsOnLastDecrement: a step that runs an instruction, a stopped block, and a fetch that faults. -/
theorem witness_step_beeps : (∃ (s u t : State) (r : StepResult) (beep : Bool) (i : Instr),
      s.applyOp .step = .next (u, .stepped r beep) ∧ s.work = .runs i ∧ exec i s = .next t) ∧
    (∃ (s u : State) (r : StepResult) (beep : Bool), s.applyOp .step = .next (u, .stepped r beep) ∧ s.work = .idle) ∧
    ∃ (s u : State) (r : StepResult) (beep : Bool), s.applyOp .step = .next (u, .stepped r beep) ∧
      ∃ f op, s.work = .raises f op :=
  ⟨⟨(stepTicks.setSt 1).withFetchWord 16 0x6001, _, _, _, _, .ldImm 0 1, rfl, by decide, rfl⟩,
    ⟨(stepTicks.setSt 1).halt, _, _, _, rfl, by decide⟩,
    ⟨(stepTicks.setSt 1).setPc 0xFFF, _, _, _, rfl, _, _, rfl⟩⟩

/-- LoadProgramCopiesImage: the largest image and one byte more. -/
theorem witness_load : (List.replicate 3584 (7 : Byte)).length ≤ 3584 ∧ 3584 < (List.replicate 3585 (7 : Byte)).length := by
  simp only [List.length_replicate]; decide

theorem witness_uninitialised : HostOp.step ≠ .initializeBlock := by decide

end Sys2Proof.Tests
end

section
/-!
PROOFS. The step operation: a step always answers, its state is that of `step`, and its result names the status left
(30_encoding.md R337).
-/

namespace Sys2Proof.Machine

/-! ## The step result -/

@[simp] theorem State.stepResult_eq_continue (s : State) : s.stepResult = .continue ↔ s.status = .running := by
  unfold State.stepResult
  cases s.status <;> simp

@[simp] theorem State.stepResult_eq_halted (s : State) : s.stepResult = .halted ↔ s.status = .halted := by
  unfold State.stepResult
  cases s.status <;> simp

@[simp] theorem State.stepResult_eq_faulted (s : State) : s.stepResult = .faulted ↔ s.status = .faulted := by
  unfold State.stepResult
  cases s.status <;> simp

/-! ## What a step with its beep can do -/

section
variable {s : State}

theorem stepBeep_idle (h : s.work = .idle) : stepBeep s = .next (s, false) := by simp [stepBeep, h]

theorem stepBeep_raises {r : Raise} {op : Word} (h : s.work = .raises r op) :
    stepBeep s = .next (s.takeFault r op, false) := by simp [stepBeep, h]

theorem stepBeep_runs {i : Instr} {t : State} (h : s.work = .runs i) (ht : exec i s = .next t) :
    stepBeep s = .next (finishStep i s t) := by simp [stepBeep, h, ht]

/-- A step never ends in a Host fault or a refusal, because no instruction does (`exec_cases`). -/
theorem stepBeep_eq_next (s : State) : ∃ (t : State) (beep : Bool), stepBeep s = .next (t, beep) := by
  cases h : s.work with
  | idle => exact ⟨_, _, stepBeep_idle h⟩
  | raises r op => exact ⟨_, _, stepBeep_raises h⟩
  | runs i =>
    obtain ⟨t, ht, -⟩ := exec_cases i s
    exact ⟨_, _, stepBeep_runs h ht⟩

/-! ## What `step` and the host's step make of it -/

theorem step_of_stepBeep {t : State} {beep : Bool} (h : stepBeep s = .next (t, beep)) : step s = .next t := by
  simp [step, h]

theorem State.applyOp_step_of_stepBeep {t : State} {beep : Bool} (h : stepBeep s = .next (t, beep)) :
    s.applyOp .step = .next (t, .stepped t.stepResult beep) := by
  simp [State.applyOp, h]

end

/-- Settles O54: the host's step and `step` both take their state from `stepBeep`, which always answers, and the
result is read off that state's status. -/
theorem stepResultNamesStatus : Obligations.StepResultNamesStatus := by
  intro s
  obtain ⟨t, beep, h⟩ := stepBeep_eq_next s
  exact ⟨t, t.stepResult, beep, State.applyOp_step_of_stepBeep h, step_of_stepBeep h, t.stepResult_eq_continue,
    t.stepResult_eq_halted, t.stepResult_eq_faulted⟩

end Sys2Proof.Machine
end

section
/-!
PROOFS. The skips on an immediate (40_control_flow.md R404, R405): the words of the form `xnn` that decode to them, and
their whole result.
-/

namespace Sys2Proof

/-- A word written field by field, as the statements write it, is the encoder's word of the format `xnn`. -/
theorem append_nib_append (c : BitVec 4) (x : Reg) (nn : Byte) : c ++ Spec.nib x ++ nn = encXnn c x nn := by
  have hx : Spec.nib x = nibbleOf x := BitVec.eq_of_toNat_eq (Nat.mod_eq_of_lt x.isLt)
  rw [hx, encXnn]

theorem decode_encXnn_seImm (x : Reg) (nn : Byte) : decode (encXnn 0x3#4 x nn) = .ok (.seImm x nn) := by
  simp [decode, opClass_encXnn, opX_encXnn, nn_encXnn]

theorem decode_encXnn_sneImm (x : Reg) (nn : Byte) : decode (encXnn 0x4#4 x nn) = .ok (.sneImm x nn) := by
  simp [decode, opClass_encXnn, opX_encXnn, nn_encXnn]

end Sys2Proof

namespace Sys2Proof.Machine

/-- A skip on a negated condition swaps the two distances; nothing but pc changes. -/
theorem State.skipIf_not (c : Prop) [Decidable c] (s : State) :
    s.skipIf (¬ c) = { s with pc := s.pc + if c then 2 else 4 } := by
  rw [State.skipIf, ite_not]

/-- Settles O6: a word of either form is the encoder's word, which decodes to its skip, and each skip is one `skipIf`,
on the equality or on its negation. -/
theorem skipOnImmediate : Obligations.SkipOnImmediate := by
  intro x nn s
  refine ⟨?_, ?_, ?_, ?_⟩
  · rw [append_nib_append, decode_encXnn_seImm]
  · rw [exec_seImm, execSeImm, State.skipIf, State.reg]
  · rw [append_nib_append, decode_encXnn_sneImm]
  · rw [exec_sneImm, execSneImm, State.skipIf_not, State.reg]

end Sys2Proof.Machine
end

section
/-!
PROOFS. The immediate load and add, the register copy and the three logic operations (41_alu.md R500–R505): the words
that decode to them, and their whole result. All six write one register and advance.
-/

namespace Sys2Proof

/-! ## The words -/

theorem nib_eq_nibbleOf (x : Reg) : Spec.nib x = nibbleOf x :=
  BitVec.eq_of_toNat_eq (Nat.mod_eq_of_lt x.isLt)

/-- A word written field by field, as the statements write it, is the encoder's word of the format `xy`. -/
theorem append_nib_append_nib_append (c : BitVec 4) (x y : Reg) (func : BitVec 4) :
    c ++ Spec.nib x ++ Spec.nib y ++ func = encXy c x y func := by
  rw [nib_eq_nibbleOf, nib_eq_nibbleOf, encXy]

theorem decode_encXnn_ldImm (x : Reg) (nn : Byte) : decode (encXnn 0x6#4 x nn) = .ok (.ldImm x nn) := by
  simp [decode, opClass_encXnn, opX_encXnn, nn_encXnn]

theorem decode_encXnn_addImm (x : Reg) (nn : Byte) : decode (encXnn 0x7#4 x nn) = .ok (.addImm x nn) := by
  simp [decode, opClass_encXnn, opX_encXnn, nn_encXnn]

/-- A word of class 8 keeps its registers; its low nibble alone is left to select the operation. -/
theorem decode_encXy_class8 (x y : Reg) (func : BitVec 4) :
    decode (encXy 0x8#4 x y func) = decodeClass8 (encXy 0x8#4 x y func) x y := by
  simp [decode, opClass_encXy, opX_encXy, opY_encXy]

theorem decode_encXy_ldReg (x y : Reg) : decode (encXy 0x8#4 x y 0x0#4) = .ok (.ldReg x y) := by
  simp [decode_encXy_class8, decodeClass8, opN_encXy]

theorem decode_encXy_or (x y : Reg) : decode (encXy 0x8#4 x y 0x1#4) = .ok (.or x y) := by
  simp [decode_encXy_class8, decodeClass8, opN_encXy]

theorem decode_encXy_and (x y : Reg) : decode (encXy 0x8#4 x y 0x2#4) = .ok (.and x y) := by
  simp [decode_encXy_class8, decodeClass8, opN_encXy]

theorem decode_encXy_xor (x y : Reg) : decode (encXy 0x8#4 x y 0x3#4) = .ok (.xor x y) := by
  simp [decode_encXy_class8, decodeClass8, opN_encXy]

/-! ## The sum -/

/-- `trunc8` reduces modulo 256 by itself. -/
theorem ofNat_mod_eq_trunc8 (n : Nat) : BitVec.ofNat 8 (n % 256) = trunc8 n :=
  BitVec.eq_of_toNat_eq (Nat.mod_mod n 256)

end Sys2Proof

namespace Sys2Proof.Machine

/-- One register write and the advance, as an update of two fields: the frame of all six instructions. -/
theorem State.advance_setReg (x : Reg) (b : Byte) (s : State) :
    (s.setReg x b).advance = { s with v := s.v.set x b, pc := s.pc + 2 } := rfl

/-- Settles O1: each word is the encoder's word, which decodes to its instruction, and each instruction writes one
register and advances; the sum's narrowing is its residue modulo 256. -/
theorem immediateLoadAndAdd : Obligations.ImmediateLoadAndAdd := by
  intro x nn s
  refine ⟨?_, ?_, ?_, ?_⟩
  · rw [append_nib_append, decode_encXnn_ldImm]
  · rw [exec_ldImm, execLdImm, State.advance_setReg]
  · rw [append_nib_append, decode_encXnn_addImm]
  · rw [exec_addImm, execAddImm, State.advance_setReg, ofNat_mod_eq_trunc8, State.reg]

/-- Settles O2: the words are one format of class 8, told apart by the low nibble; each instruction writes V[X] once,
with both operands read before the write, and advances. -/
theorem copyAndLogic : Obligations.CopyAndLogic := by
  intro x y s
  simp only [append_nib_append_nib_append]
  refine ⟨decode_encXy_ldReg x y, ?_, decode_encXy_or x y, ?_, decode_encXy_and x y, ?_, decode_encXy_xor x y, ?_⟩
  · rw [exec_ldReg, execLdReg, State.advance_setReg, State.reg]
  · rw [exec_or, execOr, State.advance_setReg, State.reg, State.reg]
  · rw [exec_and, execAnd, State.advance_setReg, State.reg, State.reg]
  · rw [exec_xor, execXor, State.advance_setReg, State.reg, State.reg]

end Sys2Proof.Machine
end

section
/-!
PROOFS. The load of the index register (42_index_memory.md R600): the words that decode to it, and its whole result.
-/

namespace Sys2Proof

/-- A word of class A carries its low twelve bits whole into the instruction (30_encoding.md R311). -/
theorem decode_encNnn_ldI (nnn : Imm12) : decode (encNnn 0xA#4 nnn) = .ok (.ldI nnn) := by
  simp [decode, opClass_encNnn, nnn_encNnn]

end Sys2Proof

namespace Sys2Proof.Machine

/-- One write of I and the advance, as an update of two fields. -/
theorem State.advance_setIdx (w : Word) (s : State) :
    (s.setIdx w).advance = { s with idx := w, pc := s.pc + 2 } := rfl

/-- Zero extension keeps the number, so the high 4 bits of I become 0 (R600). -/
theorem zextImm_eq_ofNat_toNat (nnn : Imm12) : zextImm nnn = BitVec.ofNat 16 nnn.toNat :=
  (BitVec.ofNat_toNat 16 nnn).symm

/-- Settles O13: the word is the encoder's word, which decodes to the load; the load writes I once, with the
zero-extended NNN, and advances. -/
theorem loadIndex : Obligations.LoadIndex := by
  intro nnn s
  refine ⟨?_, ?_⟩
  · rw [← encNnn, decode_encNnn_ldI]
  · rw [exec_ldI, execLdI, State.advance_setIdx, zextImm_eq_ofNat_toNat]

end Sys2Proof.Machine
end

section
/-!
PROOFS. The timer tick (60_exceptions.md R924): the host's tick is `timer_decrement()`, and so is the decrement of a
committing step.
-/

namespace Sys2Proof.Machine

/-- A timer as R924 writes it, with the decrement in the branch of the nonzero timer. -/
theorem decTimer_eq_ite_ne (b : Byte) : decTimer b = if b ≠ 0 then b - 1 else 0 := by
  rw [decTimer, ite_not]

/-- Each timer is decided by its own value alone; no other field changes. -/
theorem State.timerDecrement_fst_eq (s : State) :
    s.timerDecrement.1 =
      { s with dt := if s.dt ≠ 0 then s.dt - 1 else 0, st := if s.st ≠ 0 then s.st - 1 else 0 } := by
  rw [State.timerDecrement, decTimer_eq_ite_ne, decTimer_eq_ite_ne]

theorem State.applyOp_tickTimers (s : State) :
    s.applyOp .tickTimers = .next (s.timerDecrement.1, .beep s.timerDecrement.2) := rfl

/-- With `STEP_DECREMENTS_TIMERS` on, a committing instruction's step ends in `timer_decrement()` (R336). -/
theorem finishStep_of_committed {i : Instr} {s t : State} (hon : s.cfg.stepDecrementsTimers = true)
    (hc : committed i s t = true) : finishStep i s t = t.timerDecrement := by
  simp [finishStep, hon, hc]

/-- Settles O50: the tick and the committing step's end are both `timerDecrement`, whose timers are decremented
independently. -/
theorem tickDecrementsBothTimers : Obligations.TickDecrementsBothTimers := by
  refine ⟨fun s => ?_, fun i s t hon hc => ?_⟩
  · rw [State.applyOp_tickTimers, State.timerDecrement_fst_eq, State.timerDecrement_beep]
  · rw [finishStep_of_committed hon hc, State.applyOp_tickTimers]

end Sys2Proof.Machine
end

section
/-!
PROOFS. The reset (70_reset_and_hazards.md R1001): the bytes memory reads as after `initialize`, `FONT` below 0x050 and
0x00 above, and every field of the reset table.
-/

namespace Sys2Proof.Machine

/-! ## Memory after `initialize` -/

/-- Byte k of glyph g stands at address 5·g + k: the address determines both (10_state.md R140). -/
theorem resetByte_glyph (font : Vector (Vector Byte 5) 16) (g : Fin 16) (k : Fin 5) :
    resetByte font (5 * g.val + k.val) = font[g][k] := by
  have hglyph : (5 * g.val + k.val) / 5 = g.val := by omega
  have hbyte : (5 * g.val + k.val) % 5 = k.val := by omega
  have hfont : 5 * g.val + k.val < 80 := by omega
  simp [resetByte, hfont, hglyph, hbyte]

theorem resetByte_above_font (font : Vector (Vector Byte 5) 16) {a : Nat} (h : 0x50 ≤ a) : resetByte font a = 0 :=
  dif_neg (Nat.not_lt.mpr h)

/-- Memory lists nothing after `initialize`, so every address reads as its reset contents. -/
@[simp] theorem State.byteAt_initial (cfg : Config) (draws a : Nat) :
    (State.initial cfg draws).byteAt a = resetByte cfg.font a := rfl

/-! ## The operation -/

theorem State.applyOp_initializeBlock (s : State) :
    s.applyOp .initializeBlock = .next (State.initial s.cfg s.draws, .nothing) := rfl

/-- Settles O56: `initialize` leaves `State.initial`, whatever the state before; the scalar fields are its own, the
register file, the stack and the keys are constant vectors, the display is blank, and memory reads as its reset
contents. -/
theorem initializeSetsEveryField : Obligations.InitializeSetsEveryField := by
  intro s
  refine ⟨State.initial s.cfg s.draws, s.applyOp_initializeBlock, ?regs, rfl, rfl, ?stack, rfl, rfl, rfl, ?keys, ?disp,
    rfl, rfl, rfl, ?font, ?zero⟩
  case regs => exact fun r => Vector.getElem_replicate r.isLt
  case stack => exact fun j => Vector.getElem_replicate j.isLt
  case keys => exact fun k => Vector.getElem_replicate k.isLt
  case disp => exact fun j _ => Display.pixel_blank j
  case font =>
    intro g k
    rw [State.byteAt_initial, resetByte_glyph]
  case zero =>
    intro a habove _
    rw [State.byteAt_initial, resetByte_above_font _ habove]

end Sys2Proof.Machine
end

section
/-!
PROOFS. Decoding and encoding are inverse to each other (30_encoding.md R310, R311): the word of an instruction decodes
to it, and a word that decodes is the word of its instruction. The illegal words are those of R320.
-/

namespace Sys2Proof

/-! ## The word of an instruction decodes to it -/

theorem decode_encXy_seReg (x y : Reg) : decode (encXy 0x5#4 x y 0x0#4) = .ok (.seReg x y) := by
  simp [decode, opClass_encXy, opX_encXy, opY_encXy, opN_encXy]

theorem decode_encXy_sneReg (x y : Reg) : decode (encXy 0x9#4 x y 0x0#4) = .ok (.sneReg x y) := by
  simp [decode, opClass_encXy, opX_encXy, opY_encXy, opN_encXy]

/-- The row count stands in its nibble as it is. -/
@[simp] theorem toFin_nibbleOf (n : Fin 16) : (nibbleOf n).toFin = n := rfl

theorem decode_encXyn_drw (x y : Reg) (n : Fin 16) : decode (encXyn 0xD#4 x y n) = .ok (.drw x y n) := by
  simp [decode, encXyn_eq, opClass_encXy, opX_encXy, opY_encXy, opN_encXy]

theorem decode_encXnn_rnd (x : Reg) (nn : Byte) : decode (encXnn 0xC#4 x nn) = .ok (.rnd x nn) := by
  simp [decode, opClass_encXnn, opX_encXnn, nn_encXnn]

theorem decode_encNnn_jp (nnn : Imm12) : decode (encNnn 0x1#4 nnn) = .ok (.jp nnn) := by
  simp [decode, opClass_encNnn, nnn_encNnn]

theorem decode_encNnn_call (nnn : Imm12) : decode (encNnn 0x2#4 nnn) = .ok (.call nnn) := by
  simp [decode, opClass_encNnn, nnn_encNnn]

theorem decode_encNnn_jpV0 (nnn : Imm12) : decode (encNnn 0xB#4 nnn) = .ok (.jpV0 nnn) := by
  simp [decode, opClass_encNnn, nnn_encNnn]

/-- A word of class E keeps its register; its low byte alone is left to select the operation. -/
theorem decode_encX_classE (x : Reg) (func : Byte) :
    decode (encX 0xE#4 x func) = decodeClassE (encX 0xE#4 x func) x func := by
  simp [decode, encX_eq, opClass_encXnn, opX_encXnn, nn_encXnn]

/-- A word of class F keeps its register; its low byte alone is left to select the operation. -/
theorem decode_encX_classF (x : Reg) (func : Byte) :
    decode (encX 0xF#4 x func) = decodeClassF (encX 0xF#4 x func) x func := by
  simp [decode, encX_eq, opClass_encXnn, opX_encXnn, nn_encXnn]

/-- Settles O30: each format reads its fields back (Laws/Encoding.lean), so the class selects the row's arm, or, in
classes 8, E and F, the arm whose function bits the encoder wrote. -/
theorem decodeOfEncode : Obligations.DecodeOfEncode := by
  intro i
  cases i
  case cls => decide
  case ret => decide
  case jp nnn => exact decode_encNnn_jp nnn
  case call nnn => exact decode_encNnn_call nnn
  case ldI nnn => exact decode_encNnn_ldI nnn
  case jpV0 nnn => exact decode_encNnn_jpV0 nnn
  case seImm x nn => exact decode_encXnn_seImm x nn
  case sneImm x nn => exact decode_encXnn_sneImm x nn
  case ldImm x nn => exact decode_encXnn_ldImm x nn
  case addImm x nn => exact decode_encXnn_addImm x nn
  case rnd x nn => exact decode_encXnn_rnd x nn
  case seReg x y => exact decode_encXy_seReg x y
  case sneReg x y => exact decode_encXy_sneReg x y
  case drw x y n => exact decode_encXyn_drw x y n
  case ldReg | or | and | xor | addReg | sub | shr | subn | shl =>
    simp [encode, decode_encXy_class8, decodeClass8, opN_encXy]
  case skp | sknp => simp [encode, decode_encX_classE, decodeClassE]
  case ldVxDt | ldVxK | ldDtVx | ldStVx | addIVx | ldFVx | ldBVx | ldMemVx | ldVxMem =>
    simp [encode, decode_encX_classF, decodeClassF]

/-- Settles O33: each of the six written words is the encoder's word of its instruction, which decodes to it. -/
theorem writtenWordsDecode : Obligations.WrittenWordsDecode :=
  ⟨decodeOfEncode (.jp 0x234), decodeOfEncode (.addReg 0xA 0xB), decodeOfEncode (.ldMemVx 5),
    decodeOfEncode (.drw 1 2 5), decodeOfEncode (.skp 2), decodeOfEncode (.ldVxK 3)⟩

/-! ## A word that decodes is the word of its instruction -/

section
variable {op : Word} {c : BitVec 4}

theorem encNnn_of_opClass (h : (opClass op).toNat = c.toNat) : encNnn c (imm12Of (opX op) (opY op) (opN op)) = op := by
  rw [← BitVec.eq_of_toNat_eq h, encNnn_fields]

theorem encXnn_of_opClass (h : (opClass op).toNat = c.toNat) :
    encXnn c (regOf (opX op)) (byteOf (opY op) (opN op)) = op := by
  rw [← BitVec.eq_of_toNat_eq h, encXnn_fields]

theorem encXy_of_opClass {f : BitVec 4} (h : (opClass op).toNat = c.toNat) (hf : (opN op).toNat = f.toNat) :
    encXy c (regOf (opX op)) (regOf (opY op)) f = op := by
  rw [← BitVec.eq_of_toNat_eq h, ← BitVec.eq_of_toNat_eq hf, encXy_fields]

theorem encX_of_opClass {f : Byte} (h : (opClass op).toNat = c.toNat)
    (hf : (byteOf (opY op) (opN op)).toNat = f.toNat) : encX c (regOf (opX op)) f = op := by
  rw [encX_eq, ← BitVec.eq_of_toNat_eq hf, encXnn_of_opClass h]

end

theorem encode_of_decodeClass8 {op : Word} {i : Instr} (hc : (opClass op).toNat = 8)
    (h : decodeClass8 op (regOf (opX op)) (regOf (opY op)) = .ok i) : encode i = op := by
  unfold decodeClass8 at h
  split at h <;> cases h
  all_goals exact encXy_of_opClass hc ‹_›

theorem encode_of_decodeClassE {op : Word} {i : Instr} (hc : (opClass op).toNat = 14)
    (h : decodeClassE op (regOf (opX op)) (byteOf (opY op) (opN op)) = .ok i) : encode i = op := by
  unfold decodeClassE at h
  split at h <;> cases h
  all_goals exact encX_of_opClass hc ‹_›

theorem encode_of_decodeClassF {op : Word} {i : Instr} (hc : (opClass op).toNat = 15)
    (h : decodeClassF op (regOf (opX op)) (byteOf (opY op) (opN op)) = .ok i) : encode i = op := by
  unfold decodeClassF at h
  split at h <;> cases h
  all_goals exact encX_of_opClass hc ‹_›

/-- A word of class 5 or 9 with a last nibble of 0 is the `xy` word of its two registers. -/
theorem encXy_zero_of_opClass {op : Word} {c : BitVec 4} (h : (opClass op).toNat = c.toNat) (hn : opN op = 0#4) :
    encXy c (regOf (opX op)) (regOf (opY op)) 0x0#4 = op :=
  encXy_of_opClass h (by rw [hn])

/-- Settles O31: along the decoder's arms, the encoder puts the word together again from its class and its fields. -/
theorem encodeOfDecode : Obligations.EncodeOfDecode := by
  intro op i h
  unfold decode at h
  dsimp only at h
  split at h   -- h_k is the arm of class k − 1, h_17 the arm that no word reaches
  case h_1 =>
    split at h
    · cases h; exact Eq.symm ‹_›
    · split at h <;> cases h
      exact Eq.symm ‹_›
  case h_6 hc =>
    split at h <;> cases h
    exact encXy_zero_of_opClass hc ‹_›
  case h_10 hc =>
    split at h <;> cases h
    exact encXy_zero_of_opClass hc ‹_›
  case h_9 hc => exact encode_of_decodeClass8 hc h
  case h_15 hc => exact encode_of_decodeClassE hc h
  case h_16 hc => exact encode_of_decodeClassF hc h
  case h_14 hc => cases h; exact encXy_of_opClass hc rfl
  case h_2 hc | h_3 hc | h_11 hc | h_12 hc => cases h; exact encNnn_of_opClass hc
  case h_4 hc | h_5 hc | h_7 hc | h_8 hc | h_13 hc => cases h; exact encXnn_of_opClass hc
  case h_17 => cases h

/-! ## The illegal words -/

theorem toNat_opClass (op : Word) : (opClass op).toNat = op.toNat / 0x1000 := by
  have := op.isLt
  simp only [opClass, BitVec.extractLsb'_toNat, Nat.shiftRight_eq_div_pow]
  omega

theorem toNat_opN (op : Word) : (opN op).toNat = op.toNat % 16 := by
  simp [opN, BitVec.extractLsb'_toNat]

theorem toNat_byteOf_opY_opN (op : Word) : (byteOf (opY op) (opN op)).toNat = op.toNat % 256 := by
  show (opY op ++ opN op).toNat = op.toNat % 256
  rw [BitVec.toNat_append, ← Nat.shiftLeft_add_eq_or_of_lt (opN op).isLt, toNat_opN, opY,
    BitVec.extractLsb'_toNat, Nat.shiftRight_eq_div_pow, Nat.shiftLeft_eq]
  omega

theorem decodeClass8_eq_error_iff (op : Word) (x y : Reg) : decodeClass8 op x y = .error (.unknownOpcode op) ↔
    op.toNat % 16 ∈ [0x8, 0x9, 0xA, 0xB, 0xC, 0xD, 0xF] := by
  have hn : op.toNat % 16 < 16 := Nat.mod_lt _ (by decide)
  unfold decodeClass8
  rw [toNat_opN]
  generalize op.toNat % 16 = n at hn
  interval_cases n <;> simp

theorem decodeClassE_eq_error_iff (op : Word) (x : Reg) :
    decodeClassE op x (byteOf (opY op) (opN op)) = .error (.unknownOpcode op) ↔ op.toNat % 256 ∉ [0x9E, 0xA1] := by
  unfold decodeClassE
  rw [toNat_byteOf_opY_opN]
  split <;> simp_all

theorem decodeClassF_eq_error_iff (op : Word) (x : Reg) :
    decodeClassF op x (byteOf (opY op) (opN op)) = .error (.unknownOpcode op) ↔
      op.toNat % 256 ∉ [0x07, 0x0A, 0x15, 0x18, 0x1E, 0x29, 0x33, 0x55, 0x65] := by
  unfold decodeClassF
  rw [toNat_byteOf_opY_opN]
  split <;> simp_all


/-- The words that decode to nothing, class by class (R320). -/
theorem decode_eq_error_iff (op : Word) : decode op = .error (.unknownOpcode op) ↔
    (op.toNat < 0x1000 ∧ op.toNat ≠ 0x00E0 ∧ op.toNat ≠ 0x00EE) ∨
    (op.toNat / 0x1000 = 0x5 ∧ op.toNat % 16 ≠ 0) ∨
    (op.toNat / 0x1000 = 0x8 ∧ op.toNat % 16 ∈ [0x8, 0x9, 0xA, 0xB, 0xC, 0xD, 0xF]) ∨
    (op.toNat / 0x1000 = 0x9 ∧ op.toNat % 16 ≠ 0) ∨
    (op.toNat / 0x1000 = 0xE ∧ op.toNat % 256 ∉ [0x9E, 0xA1]) ∨
    (op.toNat / 0x1000 = 0xF ∧ op.toNat % 256 ∉ [0x07, 0x0A, 0x15, 0x18, 0x1E, 0x29, 0x33, 0x55, 0x65]) := by
  have hlt := op.isLt
  have hclass : op.toNat < 0x1000 ↔ op.toNat / 0x1000 = 0 := by omega
  unfold decode
  simp only [toNat_opClass, hclass]
  split   -- h_k is the arm of class k − 1, h_17 the arm that no word reaches
  case h_1 hc =>
    simp only [hc, ← BitVec.toNat_inj]
    split <;> simp_all
  case h_6 hc => simp [hc, ← BitVec.toNat_inj, toNat_opN]
  case h_10 hc => simp [hc, ← BitVec.toNat_inj, toNat_opN]
  case h_9 hc => simp [hc, decodeClass8_eq_error_iff]
  case h_15 hc => simp [hc, decodeClassE_eq_error_iff]
  case h_16 hc => simp [hc, decodeClassF_eq_error_iff]
  case h_17 =>
    have hc : op.toNat / 0x1000 < 16 := by omega
    clear hclass
    interval_cases op.toNat / 0x1000 <;> contradiction
  case h_2 hc | h_3 hc | h_4 hc | h_5 hc | h_7 hc | h_8 hc | h_11 hc | h_12 hc | h_13 hc | h_14 hc => simp [hc]

end Sys2Proof
end

section
/-!
PROOFS. What exec can do, said once for all instructions and grouped by the update of the state it makes: the faults,
the skips, the writes of one register, the writes of a result and a flag, and the updates that one instruction alone
makes. The frame statements are case splits over `Effect`.
-/

namespace Sys2Proof.Machine

/-- The faults that an instruction raises (60_exceptions.md R900). -/
inductive Raises (s : State) : Instr → Raise → Prop
  | ret : s.sp.val = 0 → Raises s .ret ⟨.stackUnderflow, 0⟩
  | call (nnn : Imm12) : s.sp.val = 16 → Raises s (.call nnn) ⟨.stackOverflow, zextImm nnn⟩
  | bcd (x : Reg) : 0x1000 < s.base + 3 → Raises s (.ldBVx x) ⟨.memWriteOutOfRange, trunc16 (max s.base 0x1000)⟩
  | dump (x : Reg) : 0x1000 < s.base + (x.val + 1) →
      Raises s (.ldMemVx x) ⟨.memWriteOutOfRange, trunc16 (max s.base 0x1000)⟩
  | load (x : Reg) : 0x1000 < s.base + (x.val + 1) →
      Raises s (.ldVxMem x) ⟨.memReadOutOfRange, trunc16 (max s.base 0x1000)⟩
  | draw (x y : Reg) (n : Fin 16) : n.val ≠ 0 → 0x1000 < s.base + n.val →
      Raises s (.drw x y n) ⟨.memReadOutOfRange, trunc16 (max s.base 0x1000)⟩
  | skp (x : Reg) : 16 ≤ (s.reg x).toNat → Raises s (.skp x) (keyIndexFault (s.reg x))
  | sknp (x : Reg) : 16 ≤ (s.reg x).toNat → Raises s (.sknp x) (keyIndexFault (s.reg x))

/-- How far a skip instruction moves pc (40_control_flow.md, 44_keys_timers.md). -/
inductive SkipsBy (s : State) : Instr → Word → Prop
  | seImm (x : Reg) (nn : Byte) : SkipsBy s (.seImm x nn) (if s.reg x = nn then 4 else 2)
  | sneImm (x : Reg) (nn : Byte) : SkipsBy s (.sneImm x nn) (if s.reg x ≠ nn then 4 else 2)
  | seReg (x y : Reg) : SkipsBy s (.seReg x y) (if s.reg x = s.reg y then 4 else 2)
  | sneReg (x y : Reg) : SkipsBy s (.sneReg x y) (if s.reg x ≠ s.reg y then 4 else 2)
  | skp (x : Reg) (k : Fin 16) : (s.reg x).toNat = k.val →
      SkipsBy s (.skp x) (if s.keyPressed k = true then 4 else 2)
  | sknp (x : Reg) (k : Fin 16) : (s.reg x).toNat = k.val →
      SkipsBy s (.sknp x) (if s.keyPressed k = false then 4 else 2)

/-- The instructions that write one register and advance, with the register and the byte. -/
inductive WritesReg (s : State) : Instr → Reg → Byte → Prop
  | ldImm (x : Reg) (nn : Byte) : WritesReg s (.ldImm x nn) x nn
  | addImm (x : Reg) (nn : Byte) : WritesReg s (.addImm x nn) x (trunc8 ((s.reg x).toNat + nn.toNat))
  | ldReg (x y : Reg) : WritesReg s (.ldReg x y) x (s.reg y)
  | or (x y : Reg) : WritesReg s (.or x y) x (s.reg x ||| s.reg y)
  | and (x y : Reg) : WritesReg s (.and x y) x (s.reg x &&& s.reg y)
  | xor (x y : Reg) : WritesReg s (.xor x y) x (s.reg x ^^^ s.reg y)
  | ldVxDt (x : Reg) : WritesReg s (.ldVxDt x) x s.dt
  | ldVxK (x : Reg) (k : Fin 16) : s.lowestKey = some k → WritesReg s (.ldVxK x) x (trunc8 k.val)

/-- The instructions that write a result and a flag, with both bytes (41_alu.md R506–R510). -/
inductive WritesResultFlag (s : State) : Instr → Reg → Byte → Byte → Prop
  | addReg (x y : Reg) : WritesResultFlag s (.addReg x y) x (trunc8 ((s.reg x).toNat + (s.reg y).toNat))
      (carryFlag (s.reg x) (s.reg y))
  | sub (x y : Reg) : WritesResultFlag s (.sub x y) x (trunc8 ((s.reg x).toNat + 256 - (s.reg y).toNat))
      (noBorrowFlag (s.reg x) (s.reg y))
  | shr (x y : Reg) : WritesResultFlag s (.shr x y) x (s.reg x >>> 1) (shiftedOutRight (s.reg x))
  | subn (x y : Reg) : WritesResultFlag s (.subn x y) x (trunc8 ((s.reg y).toNat + 256 - (s.reg x).toNat))
      (noBorrowFlag (s.reg y) (s.reg x))
  | shl (x y : Reg) : WritesResultFlag s (.shl x y) x (s.reg x <<< 1) (shiftedOutLeft (s.reg x))

/-- The pixels after DXYN, and whether it collided (43_display.md R701). -/
def State.drawn (s : State) (x y : Reg) (n : Fin 16) : Display × Bool :=
  drawPixels (spritePixels (s.reg x).toNat (s.reg y).toNat (s.loadBytes s.base n.val)) (s.disp, false)

/-- Instruction i takes state s to state t. -/
inductive Effect (s : State) : Instr → State → Prop
  | fault {i : Instr} {r : Raise} : Raises s i r → Effect s i (s.takeFault r (encode i))
  | skip {i : Instr} {d : Word} : SkipsBy s i d → Effect s i (s.setPc (s.pc + d))
  | writeReg {i : Instr} {x : Reg} {b : Byte} : WritesReg s i x b → Effect s i (s.setReg x b).advance
  | writeResultFlag {i : Instr} {x : Reg} {r g : Byte} : WritesResultFlag s i x r g →
      Effect s i (s.setResultFlag x r g).advance
  | random (x : Reg) (nn : Byte) : Effect s (.rnd x nn) (s.setReg x (s.rand &&& nn)).countDraw.advance
  | wait (x : Reg) : s.lowestKey = none → Effect s (.ldVxK x) s
  | halt (nnn : Imm12) : zextImm nnn = s.pc → Effect s (.jp nnn) s.halt
  | jump (nnn : Imm12) : zextImm nnn ≠ s.pc → Effect s (.jp nnn) (s.setPc (zextImm nnn))
  | jumpV0 (nnn : Imm12) : Effect s (.jpV0 nnn) (s.setPc (zextImm nnn + zextByte (s.reg Reg.v0)))
  | call (nnn : Imm12) (h : s.sp.val < 16) : Effect s (.call nnn)
      { s with stack := s.stack.set s.sp.val (s.pc + 2), sp := ⟨s.sp.val + 1, by omega⟩, pc := zextImm nnn }
  | ret (h : 0 < s.sp.val) : Effect s .ret
      { s with sp := ⟨s.sp.val - 1, by omega⟩, pc := s.stack[s.sp.val - 1]'(by omega) }
  | clear : Effect s .cls (s.setDisplay .blank).advance
  | draw (x y : Reg) (n : Fin 16) : (n.val = 0 ∨ s.base + n.val ≤ 0x1000) → Effect s (.drw x y n)
      ((s.setDisplay (s.drawn x y n).1).setReg Reg.vf (collisionFlag (s.drawn x y n).2)).advance
  | loadIdx (nnn : Imm12) : Effect s (.ldI nnn) (s.setIdx (zextImm nnn)).advance
  | addIdx (x : Reg) : Effect s (.addIVx x)
      ((s.setIdx (trunc16 (s.idx.toNat + (s.reg x).toNat))).setReg Reg.vf (indexFlag s.idx (s.reg x))).advance
  | glyph (x : Reg) : Effect s (.ldFVx x) (s.setIdx (glyphAddress (s.reg x))).advance
  | setDt (x : Reg) : Effect s (.ldDtVx x) (s.setDt (s.reg x)).advance
  | setSt (x : Reg) : Effect s (.ldStVx x) (s.setSt (s.reg x)).advance
  | bcd (x : Reg) : s.base + 3 ≤ 0x1000 → Effect s (.ldBVx x) (s.storeBytes s.base (bcdDigits (s.reg x))).advance
  | dump (x : Reg) : s.base + (x.val + 1) ≤ 0x1000 → Effect s (.ldMemVx x)
      ((s.storeBytes s.base (s.dumpBytes x)).setIdx (trunc16 (s.base + x.val + 1))).advance
  | load (x : Reg) : s.base + (x.val + 1) ≤ 0x1000 → Effect s (.ldVxMem x) (s.setRegs (s.loadedRegs x)).advance

/-! ## The instructions with more than one outcome, by their condition -/

section
variable {s : State}

theorem exec_ret_of_pos (h : 0 < s.sp.val) : exec .ret s = .next
    { s with sp := ⟨s.sp.val - 1, by omega⟩, pc := s.stack[s.sp.val - 1]'(by omega) } := by
  rw [exec_ret, execRet, (State.pop_eq_some s _ _).2 ⟨h, rfl, rfl⟩]
  rfl

theorem exec_ret_of_zero (h : s.sp.val = 0) :
    exec .ret s = .next (s.takeFault ⟨.stackUnderflow, 0⟩ (encode .ret)) := by
  rw [exec_ret, execRet, (State.pop_eq_none s).2 h, raiseFault]

theorem exec_call_of_lt (nnn : Imm12) (h : s.sp.val < 16) : exec (.call nnn) s = .next
    { s with stack := s.stack.set s.sp.val (s.pc + 2), sp := ⟨s.sp.val + 1, by omega⟩, pc := zextImm nnn } := by
  rw [exec_call, execCall, (State.push_eq_some s _ _).2 ⟨h, rfl⟩]
  rfl

theorem exec_call_of_full (nnn : Imm12) (h : s.sp.val = 16) :
    exec (.call nnn) s = .next (s.takeFault ⟨.stackOverflow, zextImm nnn⟩ (encode (.call nnn))) := by
  rw [exec_call, execCall, (State.push_eq_none s _).2 h, raiseFault]

theorem exec_jp_of_eq {nnn : Imm12} (h : zextImm nnn = s.pc) : exec (.jp nnn) s = .next s.halt := by
  rw [exec_jp, execJp, if_pos h]

theorem exec_jp_of_ne {nnn : Imm12} (h : zextImm nnn ≠ s.pc) : exec (.jp nnn) s = .next (s.setPc (zextImm nnn)) := by
  rw [exec_jp, execJp, if_neg h]

theorem exec_skp_of_eq {x : Reg} {k : Fin 16} (h : (s.reg x).toNat = k.val) :
    exec (.skp x) s = .next (s.skipIf (s.keyPressed k = true)) := by
  rw [exec_skp, execSkp, (keyIndex?_eq_some _ k).2 h]

theorem exec_skp_of_ge {x : Reg} (h : 16 ≤ (s.reg x).toNat) :
    exec (.skp x) s = .next (s.takeFault (keyIndexFault (s.reg x)) (encode (.skp x))) := by
  rw [exec_skp, execSkp, (keyIndex?_eq_none _).2 h, raiseFault]

theorem exec_sknp_of_eq {x : Reg} {k : Fin 16} (h : (s.reg x).toNat = k.val) :
    exec (.sknp x) s = .next (s.skipIf (s.keyPressed k = false)) := by
  rw [exec_sknp, execSknp, (keyIndex?_eq_some _ k).2 h]

theorem exec_sknp_of_ge {x : Reg} (h : 16 ≤ (s.reg x).toNat) :
    exec (.sknp x) s = .next (s.takeFault (keyIndexFault (s.reg x)) (encode (.sknp x))) := by
  rw [exec_sknp, execSknp, (keyIndex?_eq_none _).2 h, raiseFault]

theorem exec_ldVxK_of_key {x : Reg} {k : Fin 16} (h : s.lowestKey = some k) :
    exec (.ldVxK x) s = .next (s.setReg x (trunc8 k.val)).advance := by
  rw [exec_ldVxK, execLdVxK, h]

theorem exec_ldVxK_of_none {x : Reg} (h : s.lowestKey = none) : exec (.ldVxK x) s = .next s := by
  rw [exec_ldVxK, execLdVxK, h]

/-- The bounds check fails: the fault names the lowest address above 0xFFF. -/
theorem rangeFault_of_gt (k : FaultKind) {base count : Nat} (h0 : 0 < count) (h : 0x1000 < base + count) :
    rangeFault k base count = some ⟨k, trunc16 (max base 0x1000)⟩ :=
  (rangeFault_eq_some k base count _).2 ⟨⟨h0, h⟩, rfl⟩

theorem rangeFault_of_le (k : FaultKind) {base count : Nat} (h : count = 0 ∨ base + count ≤ 0x1000) :
    rangeFault k base count = none := (rangeFault_eq_none k base count).2 h

theorem exec_ldBVx_of_le (x : Reg) (h : s.base + 3 ≤ 0x1000) :
    exec (.ldBVx x) s = .next (s.storeBytes s.base (bcdDigits (s.reg x))).advance := by
  rw [exec_ldBVx, execLdBVx, rangeFault_of_le _ (.inr h)]

theorem exec_ldBVx_of_gt (x : Reg) (h : 0x1000 < s.base + 3) : exec (.ldBVx x) s =
    .next (s.takeFault ⟨.memWriteOutOfRange, trunc16 (max s.base 0x1000)⟩ (encode (.ldBVx x))) := by
  rw [exec_ldBVx, execLdBVx, rangeFault_of_gt _ (by decide) h]
  rfl

theorem exec_ldMemVx_of_le (x : Reg) (h : s.base + (x.val + 1) ≤ 0x1000) : exec (.ldMemVx x) s =
    .next ((s.storeBytes s.base (s.dumpBytes x)).setIdx (trunc16 (s.base + x.val + 1))).advance := by
  rw [exec_ldMemVx, execLdMemVx, rangeFault_of_le _ (.inr h)]

theorem exec_ldMemVx_of_gt (x : Reg) (h : 0x1000 < s.base + (x.val + 1)) : exec (.ldMemVx x) s =
    .next (s.takeFault ⟨.memWriteOutOfRange, trunc16 (max s.base 0x1000)⟩ (encode (.ldMemVx x))) := by
  rw [exec_ldMemVx, execLdMemVx, rangeFault_of_gt _ (Nat.succ_pos _) h]
  rfl

theorem exec_ldVxMem_of_le (x : Reg) (h : s.base + (x.val + 1) ≤ 0x1000) :
    exec (.ldVxMem x) s = .next (s.setRegs (s.loadedRegs x)).advance := by
  rw [exec_ldVxMem, execLdVxMem, rangeFault_of_le _ (.inr h)]

theorem exec_ldVxMem_of_gt (x : Reg) (h : 0x1000 < s.base + (x.val + 1)) : exec (.ldVxMem x) s =
    .next (s.takeFault ⟨.memReadOutOfRange, trunc16 (max s.base 0x1000)⟩ (encode (.ldVxMem x))) := by
  rw [exec_ldVxMem, execLdVxMem, rangeFault_of_gt _ (Nat.succ_pos _) h]
  rfl

theorem exec_drw_of_le (x y : Reg) {n : Fin 16} (h : n.val = 0 ∨ s.base + n.val ≤ 0x1000) : exec (.drw x y n) s =
    .next ((s.setDisplay (s.drawn x y n).1).setReg Reg.vf (collisionFlag (s.drawn x y n).2)).advance := by
  rw [exec_drw, execDrw, rangeFault_of_le _ h]
  rfl

theorem exec_drw_of_gt (x y : Reg) {n : Fin 16} (h0 : n.val ≠ 0) (h : 0x1000 < s.base + n.val) : exec (.drw x y n) s =
    .next (s.takeFault ⟨.memReadOutOfRange, trunc16 (max s.base 0x1000)⟩ (encode (.drw x y n))) := by
  rw [exec_drw, execDrw, rangeFault_of_gt _ (Nat.pos_of_ne_zero h0) h]
  rfl

end

/-! ## Every instruction has its effect -/

theorem exec_effect (i : Instr) (s : State) : ∃ t, exec i s = .next t ∧ Effect s i t := by
  cases i
  case cls => exact ⟨_, rfl, .clear⟩
  case ret =>
    rcases Nat.eq_zero_or_pos s.sp.val with h | h
    · exact ⟨_, exec_ret_of_zero h, .fault (.ret h)⟩
    · exact ⟨_, exec_ret_of_pos h, .ret h⟩
  case jp nnn =>
    by_cases h : zextImm nnn = s.pc
    · exact ⟨_, exec_jp_of_eq h, .halt nnn h⟩
    · exact ⟨_, exec_jp_of_ne h, .jump nnn h⟩
  case call nnn =>
    by_cases h : s.sp.val < 16
    · exact ⟨_, exec_call_of_lt nnn h, .call nnn h⟩
    · have hfull : s.sp.val = 16 := by omega
      exact ⟨_, exec_call_of_full nnn hfull, .fault (.call nnn hfull)⟩
  case seImm x nn => exact ⟨_, rfl, .skip (.seImm x nn)⟩
  case sneImm x nn => exact ⟨_, rfl, .skip (.sneImm x nn)⟩
  case seReg x y => exact ⟨_, rfl, .skip (.seReg x y)⟩
  case sneReg x y => exact ⟨_, rfl, .skip (.sneReg x y)⟩
  case skp x =>
    by_cases h : (s.reg x).toNat < 16
    · exact ⟨_, exec_skp_of_eq (k := ⟨_, h⟩) rfl, .skip (.skp x ⟨_, h⟩ rfl)⟩
    · exact ⟨_, exec_skp_of_ge (Nat.le_of_not_lt h), .fault (.skp x (Nat.le_of_not_lt h))⟩
  case sknp x =>
    by_cases h : (s.reg x).toNat < 16
    · exact ⟨_, exec_sknp_of_eq (k := ⟨_, h⟩) rfl, .skip (.sknp x ⟨_, h⟩ rfl)⟩
    · exact ⟨_, exec_sknp_of_ge (Nat.le_of_not_lt h), .fault (.sknp x (Nat.le_of_not_lt h))⟩
  case ldImm x nn => exact ⟨_, rfl, .writeReg (.ldImm x nn)⟩
  case addImm x nn => exact ⟨_, rfl, .writeReg (.addImm x nn)⟩
  case ldReg x y => exact ⟨_, rfl, .writeReg (.ldReg x y)⟩
  case or x y => exact ⟨_, rfl, .writeReg (.or x y)⟩
  case and x y => exact ⟨_, rfl, .writeReg (.and x y)⟩
  case xor x y => exact ⟨_, rfl, .writeReg (.xor x y)⟩
  case ldVxDt x => exact ⟨_, rfl, .writeReg (.ldVxDt x)⟩
  case ldVxK x =>
    cases h : s.lowestKey with
    | none => exact ⟨_, exec_ldVxK_of_none h, .wait x h⟩
    | some k => exact ⟨_, exec_ldVxK_of_key h, .writeReg (.ldVxK x k h)⟩
  case addReg x y => exact ⟨_, rfl, .writeResultFlag (.addReg x y)⟩
  case sub x y => exact ⟨_, rfl, .writeResultFlag (.sub x y)⟩
  case shr x y => exact ⟨_, rfl, .writeResultFlag (.shr x y)⟩
  case subn x y => exact ⟨_, rfl, .writeResultFlag (.subn x y)⟩
  case shl x y => exact ⟨_, rfl, .writeResultFlag (.shl x y)⟩
  case ldI nnn => exact ⟨_, rfl, .loadIdx nnn⟩
  case jpV0 nnn => exact ⟨_, rfl, .jumpV0 nnn⟩
  case rnd x nn => exact ⟨_, rfl, .random x nn⟩
  case drw x y n =>
    by_cases h : n.val = 0 ∨ s.base + n.val ≤ 0x1000
    · exact ⟨_, exec_drw_of_le x y h, .draw x y n h⟩
    · obtain ⟨h0, hgt⟩ := not_or.1 h
      exact ⟨_, exec_drw_of_gt x y h0 (Nat.lt_of_not_le hgt),
        .fault (.draw x y n h0 (Nat.lt_of_not_le hgt))⟩
  case ldDtVx x => exact ⟨_, rfl, .setDt x⟩
  case ldStVx x => exact ⟨_, rfl, .setSt x⟩
  case addIVx x => exact ⟨_, rfl, .addIdx x⟩
  case ldFVx x => exact ⟨_, rfl, .glyph x⟩
  case ldBVx x =>
    rcases Nat.lt_or_ge 0x1000 (s.base + 3) with h | h
    · exact ⟨_, exec_ldBVx_of_gt x h, .fault (.bcd x h)⟩
    · exact ⟨_, exec_ldBVx_of_le x h, .bcd x h⟩
  case ldMemVx x =>
    rcases Nat.lt_or_ge 0x1000 (s.base + (x.val + 1)) with h | h
    · exact ⟨_, exec_ldMemVx_of_gt x h, .fault (.dump x h)⟩
    · exact ⟨_, exec_ldMemVx_of_le x h, .dump x h⟩
  case ldVxMem x =>
    rcases Nat.lt_or_ge 0x1000 (s.base + (x.val + 1)) with h | h
    · exact ⟨_, exec_ldVxMem_of_gt x h, .fault (.load x h)⟩
    · exact ⟨_, exec_ldVxMem_of_le x h, .load x h⟩

theorem effect_of_exec {i : Instr} {s t : State} (h : exec i s = .next t) : Effect s i t := by
  obtain ⟨u, hu, he⟩ := exec_effect i s
  obtain rfl : t = u := Host.Outcome.next.inj (h.symm.trans hu)
  exact he

end Sys2Proof.Machine
end

section
/-!
PROOFS. What each instruction leaves unchanged, field by field (10_state.md, 20_memory.md section 1): the display, the
timers, the stack, the registers, memory; and how each updates pc.
-/

namespace Sys2Proof.Machine

/-! ## Display -/

/-- Settles O24: of all effects, only the two that set the display touch it or the draw flag, and both set the flag. -/
theorem displayChangesOnlyByClearAndDraw : Obligations.DisplayChangesOnlyByClearAndDraw := by
  intro i s t h
  cases effect_of_exec h with
  | clear => exact ⟨fun _ => .inl ⟨rfl, fun _ _ => Display.pixel_blank _⟩, fun _ => ⟨rfl, .inl rfl⟩, nofun⟩
  | draw x y n => exact ⟨fun _ => .inr ⟨x, y, n, rfl⟩, fun _ => ⟨rfl, .inr ⟨x, y, n, rfl⟩⟩, nofun⟩
  | _ => simp

/-! ## Stack -/

/-- Settles O44: a call that fits pushes, a return that finds a slot pops, and no other effect touches the stack. -/
theorem stackChangesOnlyByCallAndReturn : Obligations.StackChangesOnlyByCallAndReturn := by
  intro i s t h
  refine ⟨Nat.le_of_lt_succ t.sp.isLt, ?call, ?ret, ?frame⟩
  case call =>
    rintro nnn rfl hlt
    rw [exec_call_of_lt nnn hlt] at h
    cases h
    exact ⟨rfl, rfl⟩
  case ret =>
    rintro rfl hpos
    rw [exec_ret_of_pos hpos] at h
    cases h
    exact ⟨rfl, rfl, rfl⟩
  case frame =>
    cases effect_of_exec h with
    | call nnn hlt => exact fun _ => .inl ⟨hlt, nnn, rfl⟩
    | ret hpos => exact fun _ => .inr ⟨hpos, rfl⟩
    | _ => simp

/-! ## Registers -/

theorem flagByte_eq_zero_or_one (c : Prop) [Decidable c] : flagByte c = 0 ∨ flagByte c = 1 := by
  unfold flagByte
  split <;> simp

theorem collisionFlag_eq_zero_or_one (c : Bool) : collisionFlag c = 0 ∨ collisionFlag c = 1 :=
  flagByte_eq_zero_or_one _

theorem indexFlag_eq_zero_or_one (w : Word) (b : Byte) : indexFlag w b = 0 ∨ indexFlag w b = 1 :=
  flagByte_eq_zero_or_one _

section
variable {s : State} {i : Instr} {x : Reg} {b g : Byte}

theorem WritesReg.hasDest (h : WritesReg s i x b) : i.hasDest x = true := by
  cases h <;> simp [Instr.hasDest]

theorem WritesReg.writesFlag (h : WritesReg s i x b) : i.writesFlag = false := by
  cases h <;> rfl

theorem WritesResultFlag.hasDest (h : WritesResultFlag s i x b g) : i.hasDest x = true := by
  cases h <;> simp [Instr.hasDest]

theorem WritesResultFlag.writesFlag (h : WritesResultFlag s i x b g) : i.writesFlag = true := by
  cases h <;> rfl

theorem WritesResultFlag.flag (h : WritesResultFlag s i x b g) : g = 0 ∨ g = 1 := by
  cases h <;> exact flagByte_eq_zero_or_one _

end

/-- A destination differs from every register that is none. -/
theorem ne_of_hasDest {i : Instr} {x r : Reg} (hx : i.hasDest x = true) (hr : i.hasDest r = false) : r ≠ x := by
  rintro rfl
  simp [hx] at hr

/-- Settles O46: an effect writes a register only as a destination, or VF as a flag. -/
theorem registersChangeOnlyAsListed : Obligations.RegistersChangeOnlyAsListed := by
  intro i s t r h hdest hflag
  simp only [State.getElem_v]
  cases effect_of_exec h with
  | writeReg hw => simp [State.reg_setReg, ne_of_hasDest hw.hasDest hdest]
  | writeResultFlag hw =>
    have hr : r ≠ 15 := by simpa [hw.writesFlag] using hflag
    simp [State.reg_setResultFlag, ne_of_hasDest hw.hasDest hdest, hr]
  | random x nn => simp_all [State.reg_setReg, Instr.hasDest]
  | draw x y n =>
    have hr : r ≠ 15 := by simpa [Instr.writesFlag] using hflag
    simp [State.reg_setReg, hr]
  | addIdx x =>
    have hr : r ≠ 15 := by simpa [Instr.writesFlag] using hflag
    simp [State.reg_setReg, hr]
  | load x => simp_all [Instr.hasDest]
  | call nnn h => rfl
  | ret h => rfl
  | _ => simp

/-- Settles O45: a VF that changed is a destination or a written flag (O46), and a flag that is no destination is the
last byte written to VF. -/
theorem flagRegisterWriters : Obligations.FlagRegisterWriters := by
  intro i s t h hne
  by_cases hdest : i.hasDest 15 = true
  · exact .inr hdest
  have hdest : i.hasDest 15 = false := by simpa using hdest
  have hflag : i.writesFlag = true := by
    by_contra hno
    exact hne (registersChangeOnlyAsListed i s t 15 h hdest (.inl (by simpa using hno)))
  refine .inl ⟨hflag, fun _ => ?_⟩
  change t.reg 15 ≠ s.reg 15 at hne
  change t.reg 15 = 0 ∨ t.reg 15 = 1
  cases effect_of_exec h with
  | writeResultFlag hw =>
    simpa [State.reg_setResultFlag, ne_of_hasDest hw.hasDest hdest] using hw.flag
  | draw x y n => simpa [Reg.vf] using collisionFlag_eq_zero_or_one _
  | addIdx x => simpa [Reg.vf] using indexFlag_eq_zero_or_one _ _
  | writeReg hw => simp [hw.writesFlag] at hflag
  | fault => simp at hne
  | skip => simp at hne
  | _ => simp [Instr.writesFlag] at hflag

/-! ## Memory -/

/-- Settles O48: two effects store bytes, each from I on and inside memory, and every other address keeps its byte. -/
theorem memoryChangesOnlyByStores : Obligations.MemoryChangesOnlyByStores := by
  intro i s t a h hne
  cases effect_of_exec h with
  | bcd x hle =>
    have hin : s.base ≤ a ∧ a < s.base + 3 := by
      by_contra hout
      exact hne (by simpa using State.byteAt_storeBytes_outside s _ (bcdDigits (s.reg x)) a hout)
    rw [State.base] at hle hin
    exact ⟨by omega, hin.1, .inl ⟨x, rfl, by omega⟩⟩
  | dump x hle =>
    have hin : s.base ≤ a ∧ a < s.base + (x.val + 1) := by
      by_contra hout
      refine hne ?_
      simpa using State.byteAt_storeBytes_outside s s.base (s.dumpBytes x) a (by simpa using hout)
    rw [State.base] at hle hin
    exact ⟨by omega, hin.1, .inr ⟨x, rfl, by omega⟩⟩
  | call nnn h => exact absurd rfl hne
  | ret h => exact absurd rfl hne
  | _ => simp at hne

/-! ## Faults -/

theorem Raises.kind_ne_noFault {s : State} {i : Instr} {r : Raise} (h : Raises s i r) : r.kind ≠ .noFault := by
  cases h <;> simp [keyIndexFault]

/-- An instruction faults only by raising a fault of its own. -/
theorem raises_of_faulted {i : Instr} {s t : State} (h : Effect s i t) (hs : s.status ≠ .faulted)
    (ht : t.status = .faulted) : ∃ r, Raises s i r ∧ t = s.takeFault r (encode i) := by
  cases h with
  | fault hr => exact ⟨_, hr, rfl⟩
  | halt nnn h => simp at ht
  | _ => exact absurd (by simpa using ht) hs

/-- Settles O38: the instructions of `Raises`, each with its kind and condition. -/
theorem onlyListedInstructionsFault : Obligations.OnlyListedInstructionsFault := by
  intro i s t hs h ht
  obtain ⟨r, hr, rfl⟩ := raises_of_faulted (effect_of_exec h) hs ht
  cases hr with
  | ret h0 => exact .inl ⟨rfl, rfl, h0⟩
  | call nnn hfull => exact .inr (.inl ⟨⟨nnn, rfl⟩, rfl, hfull⟩)
  | bcd x => exact .inr (.inr (.inl ⟨⟨x, .inl rfl⟩, rfl⟩))
  | dump x => exact .inr (.inr (.inl ⟨⟨x, .inr rfl⟩, rfl⟩))
  | load x => exact .inr (.inr (.inr (.inl ⟨.inl ⟨x, rfl⟩, rfl⟩)))
  | draw x y n => exact .inr (.inr (.inr (.inl ⟨.inr ⟨x, y, n, rfl⟩, rfl⟩)))
  | skp x hge => exact .inr (.inr (.inr (.inr ⟨⟨x, .inl rfl, hge⟩, rfl⟩)))
  | sknp x hge => exact .inr (.inr (.inr (.inr ⟨⟨x, .inr rfl, hge⟩, rfl⟩)))

/-! ## Program counter -/

/-- BNNN's target is the sum itself: it fits 16 bits, and is at most 0x10FE (R408). -/
theorem toNat_zextImm_add_zextByte (nnn : Imm12) (b : Byte) :
    (zextImm nnn + zextByte b).toNat = nnn.toNat + b.toNat := by
  have := nnn.isLt
  have := b.isLt
  simp only [zextImm, zextByte, BitVec.toNat_add, BitVec.toNat_setWidth]
  omega

@[simp] theorem toNat_zextImm (nnn : Imm12) : (zextImm nnn).toNat = nnn.toNat := by
  have := nnn.isLt
  simp only [zextImm, BitVec.toNat_setWidth]
  omega

/-- Some key is pressed exactly when a lowest one is. -/
theorem exists_key_of_lowestKey {s : State} {k : Fin 16} (h : s.lowestKey = some k) :
    ∃ k : Fin 16, s.keys[k] = true := ⟨k, State.keyPressed_of_lowestKey h⟩

theorem not_exists_key_of_lowestKey {s : State} (h : s.lowestKey = none) : ¬ ∃ k : Fin 16, s.keys[k] = true := by
  rintro ⟨k, hk⟩
  have hnone := (State.lowestKey_eq_none s).1 h k
  rw [State.keyPressed, hk] at hnone
  cases hnone

/-- The key that V[X] names, as the statements read it. -/
theorem getElem_keys_toNat {s : State} {x : Reg} {k : Fin 16} (hk : (s.reg x).toNat = k.val)
    (h : s.v[x].toNat < 16) : s.keys[s.v[x].toNat] = s.keyPressed k := by
  have hfin : k = ⟨_, h⟩ := Fin.ext hk.symm
  rw [hfin]
  rfl

/-- Settles O12: the effects are the table's groups. A fault keeps pc; a jump, call or return sets it; a skip adds 4
or 2 on its own condition; a wait keeps it; every other effect advances. -/
theorem pcUpdateByInstruction : Obligations.PcUpdateByInstruction := by
  intro i s t h hs
  cases effect_of_exec h with
  | fault hr => simp
  | halt nnn heq => simp [← heq]
  | jump nnn hne => simp [hs]
  | jumpV0 nnn => exact ⟨by simp [hs], fun _ => toNat_zextImm_add_zextByte nnn _⟩
  | call nnn hlt => simp [hs]
  | ret hpos => exact ⟨by simp [hs], fun _ => ⟨by omega, rfl⟩⟩
  | wait x hnone =>
    refine ⟨by simp [hs], fun _ => ?_⟩
    rw [if_neg (not_exists_key_of_lowestKey hnone)]
    exact (BitVec.add_zero _).symm
  | skip hskip =>
    refine ⟨by simp [hs], fun _ => ?_⟩
    cases hskip with
    | skp x k hk =>
      have hlt : s.v[x].toNat < 16 := hk ▸ k.isLt
      exact ⟨hlt, by rw [getElem_keys_toNat hk hlt, State.setPc_pc]⟩
    | sknp x k hk =>
      have hlt : s.v[x].toNat < 16 := hk ▸ k.isLt
      refine ⟨hlt, ?_⟩
      rw [getElem_keys_toNat hk hlt]
      cases s.keyPressed k <;> rfl
    | _ => rfl
  | writeReg hw =>
    refine ⟨by simp [hs], fun _ => ?_⟩
    cases hw with
    | ldVxK x k hk => rw [if_pos (exists_key_of_lowestKey hk)]; rfl
    | _ => rfl
  | writeResultFlag hw =>
    refine ⟨by simp [hs], fun _ => ?_⟩
    cases hw <;> simp
  | _ => simp [hs]

end Sys2Proof.Machine
end

section
/-!
PROOFS. Noninterference: a tick and any change of ST pass through an instruction that neither reads DT nor writes a
timer, and a register that an instruction does not read leaves no trace but its own value (10_state.md sections 1 and
5, 20_memory.md section 7).
-/

namespace Sys2Proof.Machine

/-! ## Timers -/

/-- Both timers changed, each by a function of its own value; a tick and a write of ST are of this form. -/
def State.mapTimers (f g : Byte → Byte) (s : State) : State := { s with dt := f s.dt, st := g s.st }

theorem State.timerDecrement_fst_eq_mapTimers (s : State) : s.timerDecrement.1 = s.mapTimers decTimer decTimer := rfl

theorem State.setSt_eq_mapTimers (b : Byte) (s : State) : s.setSt b = s.mapTimers id (fun _ => b) := rfl

section
variable (f g : Byte → Byte) (s : State)

theorem State.mapTimers_pc : (s.mapTimers f g).pc = s.pc := rfl
theorem State.base_mapTimers : (s.mapTimers f g).base = s.base := rfl
theorem State.reg_mapTimers (x : Reg) : (s.mapTimers f g).reg x = s.reg x := rfl
theorem State.loadedRegs_mapTimers (x : Reg) : (s.mapTimers f g).loadedRegs x = s.loadedRegs x := rfl
theorem State.lowestKey_mapTimers : (s.mapTimers f g).lowestKey = s.lowestKey := rfl

theorem State.push_mapTimers (w : Word) : (s.mapTimers f g).push w = (s.push w).map (State.mapTimers f g) := by
  unfold State.push
  by_cases h : s.sp.val < 16 <;> simp [h, State.mapTimers]

theorem State.pop_mapTimers :
    (s.mapTimers f g).pop = s.pop.map fun p => (p.1, p.2.mapTimers f g) := by
  unfold State.pop
  by_cases h : 0 < s.sp.val <;> simp [h, State.mapTimers]

theorem State.setResultFlag_mapTimers (x : Reg) (r b : Byte) :
    (s.mapTimers f g).setResultFlag x r b = (s.setResultFlag x r b).mapTimers f g := by
  have hcfg : (s.mapTimers f g).cfg = s.cfg := rfl
  unfold State.setResultFlag
  rw [hcfg]
  cases s.cfg.vfOrder <;> rfl

theorem State.storeBytes_mapTimers (a : Nat) (bs : List Byte) :
    (s.mapTimers f g).storeBytes a bs = (s.storeBytes a bs).mapTimers f g := by
  induction bs generalizing a s with
  | nil => rfl
  | cons b bs ih => exact ih (s.storeByte a b) (a + 1)

/-- The outcomes agree because every condition and every operand of the instruction reads fields that `mapTimers`
keeps. -/
theorem exec_mapTimers {i : Instr} (h : ∀ x, i ≠ .ldVxDt x ∧ i ≠ .ldDtVx x ∧ i ≠ .ldStVx x) :
    exec i (s.mapTimers f g) = Result.map (State.mapTimers f g) (exec i s) := by
  cases i
  case ret =>
    rw [exec_ret, exec_ret, execRet, execRet, State.pop_mapTimers]
    cases s.pop <;> rfl
  case call nnn =>
    rw [exec_call, exec_call, execCall, execCall, State.mapTimers_pc, State.push_mapTimers]
    cases s.push (s.pc + 2) <;> rfl
  case jp nnn =>
    by_cases heq : zextImm nnn = s.pc
    · rw [exec_jp_of_eq heq, exec_jp_of_eq (s := s.mapTimers f g) heq]; rfl
    · rw [exec_jp_of_ne heq, exec_jp_of_ne (s := s.mapTimers f g) heq]; rfl
  case skp x =>
    rw [exec_skp, exec_skp, execSkp, execSkp, State.reg_mapTimers]
    cases keyIndex? (s.reg x) <;> rfl
  case sknp x =>
    rw [exec_sknp, exec_sknp, execSknp, execSknp, State.reg_mapTimers]
    cases keyIndex? (s.reg x) <;> rfl
  case ldVxK x =>
    rw [exec_ldVxK, exec_ldVxK, execLdVxK, execLdVxK, State.lowestKey_mapTimers]
    cases s.lowestKey <;> rfl
  case drw x y n =>
    rw [exec_drw, exec_drw, execDrw, execDrw, State.base_mapTimers]
    cases rangeFault .memReadOutOfRange s.base n.val <;> rfl
  case ldVxMem x =>
    rw [exec_ldVxMem, exec_ldVxMem, execLdVxMem, execLdVxMem, State.base_mapTimers,
      State.loadedRegs_mapTimers]
    generalize s.loadedRegs x = v
    cases rangeFault .memReadOutOfRange s.base (x.val + 1) <;> rfl
  case ldBVx x =>
    rw [exec_ldBVx, exec_ldBVx, execLdBVx, execLdBVx, State.base_mapTimers, State.storeBytes_mapTimers]
    cases rangeFault .memWriteOutOfRange s.base 3 <;> rfl
  case ldMemVx x =>
    rw [exec_ldMemVx, exec_ldMemVx, execLdMemVx, execLdMemVx, State.base_mapTimers, State.storeBytes_mapTimers]
    cases rangeFault .memWriteOutOfRange s.base (x.val + 1) <;> rfl
  case addReg x y => rw [exec_addReg, execAddReg, State.setResultFlag_mapTimers]; rfl
  case sub x y => rw [exec_sub, execSub, State.setResultFlag_mapTimers]; rfl
  case shr x y => rw [exec_shr, execShr, State.setResultFlag_mapTimers]; rfl
  case subn x y => rw [exec_subn, execSubn, State.setResultFlag_mapTimers]; rfl
  case shl x y => rw [exec_shl, execShl, State.setResultFlag_mapTimers]; rfl
  case ldVxDt x => exact absurd rfl (h x).1
  case ldDtVx x => exact absurd rfl (h x).2.1
  case ldStVx x => exact absurd rfl (h x).2.2
  all_goals rfl

end

/-- Settles O52: a tick is a change of both timers, which no other instruction looks at. -/
theorem tickCommutesWithOtherInstructions : Obligations.TickCommutesWithOtherInstructions := by
  intro i s h
  simp only [State.timerDecrement_fst_eq_mapTimers]
  exact exec_mapTimers decTimer decTimer s h

/-- A later write of ST hides an earlier one. -/
theorem Result.map_setSt_map_setSt (b c : Byte) (r : Result) :
    Result.map (State.setSt c) (Result.map (State.setSt b) r) = Result.map (State.setSt c) r := by
  cases r <;> rfl

/-- Settles O29: a change of ST passes through every instruction but the three that use a timer, whose one line each
shows it; and only FX15 and FX18 have an effect on a timer. -/
theorem soundTimerIsNeverRead : Obligations.SoundTimerIsNeverRead := by
  refine ⟨fun i s b => ?_, fun i s t h => ?_⟩
  · by_cases htimer : ∃ x, i = .ldVxDt x ∨ i = .ldDtVx x ∨ i = .ldStVx x
    · obtain ⟨x, rfl | rfl | rfl⟩ := htimer <;> rfl
    · have hother : ∀ x, i ≠ .ldVxDt x ∧ i ≠ .ldDtVx x ∧ i ≠ .ldStVx x := by simpa using htimer
      rw [State.setSt_eq_mapTimers, exec_mapTimers _ _ s hother]
      exact Result.map_setSt_map_setSt b 0 (exec i s)
  · cases effect_of_exec h with
    | setSt x => exact ⟨fun _ => ⟨x, rfl⟩, fun hne => absurd rfl hne⟩
    | setDt x => exact ⟨fun hne => absurd rfl hne, fun _ => ⟨x, rfl⟩⟩
    | _ => simp

end Sys2Proof.Machine
end

section
/-!
PROOFS. The read column of 10_state.md section 1: a register that an instruction does not read has no influence on what
it does, but for the register's own value.
-/

namespace Sys2Proof.Machine

section
variable (s : State) (r : Reg) (b c : Byte)

theorem State.setReg_setReg_self : (s.setReg r b).setReg r c = s.setReg r c := by
  simp [State.setReg]

theorem State.setReg_setReg_comm {x : Reg} (h : r ≠ x) :
    (s.setReg r b).setReg x c = (s.setReg x c).setReg r b := by
  have : r.val ≠ x.val := fun e => h (Fin.ext e)
  simp [State.setReg, Vector.set_comm _ _ this]

/-! What a write of register r lets through. -/

theorem State.reg_setReg_of_ne {x : Reg} (h : r ≠ x) : (s.setReg r b).reg x = s.reg x :=
  State.reg_setReg_ne s r x b h.symm

theorem State.setRegs_setReg (v : Vector Byte 16) : (s.setReg r b).setRegs v = s.setRegs v := rfl
theorem State.setReg_setRegs (v : Vector Byte 16) : (s.setRegs v).setReg r b = s.setRegs (v.set r b) := rfl
theorem State.base_setReg : (s.setReg r b).base = s.base := rfl
theorem State.lowestKey_setReg : (s.setReg r b).lowestKey = s.lowestKey := rfl

theorem State.push_setReg (w : Word) : (s.setReg r b).push w = (s.push w).map (State.setReg r b) := by
  unfold State.push
  by_cases h : s.sp.val < 16 <;> simp [h, State.setReg]

theorem State.pop_setReg : (s.setReg r b).pop = s.pop.map fun p => (p.1, p.2.setReg r b) := by
  unfold State.pop
  by_cases h : 0 < s.sp.val <;> simp [h, State.setReg]

theorem State.storeBytes_setReg (a : Nat) (bs : List Byte) :
    (s.setReg r b).storeBytes a bs = (s.storeBytes a bs).setReg r b := by
  induction bs generalizing a s with
  | nil => rfl
  | cons d ds ih => exact ih (s.storeByte a d) (a + 1)

theorem State.dumpBytes_setReg {x : Reg} (h : ¬ r ≤ x) : (s.setReg r b).dumpBytes x = s.dumpBytes x := by
  refine List.ext_getElem (by simp) fun k hk _ => ?_
  have hkx : k < x.val + 1 := by simpa using hk
  have hne : r ≠ ⟨k, by omega⟩ := fun e => h (e ▸ Nat.le_of_lt_succ hkx)
  simp [State.reg_setReg_of_ne _ _ _ hne]

end

/-! ## States that differ in one register -/

/-- s and t differ in no field but in register r. -/
def State.SameBut (r : Reg) (s t : State) : Prop := s.setReg r 0 = t.setReg r 0

namespace State.SameBut

theorem setReg_left (s : State) (r : Reg) (b : Byte) : State.SameBut r (s.setReg r b) s :=
  State.setReg_setReg_self s r b 0

variable {s t : State} {r : Reg} (h : State.SameBut r s t)
include h

theorem setReg (x : Reg) (c : Byte) : State.SameBut r (s.setReg x c) (t.setReg x c) := by
  unfold State.SameBut at *
  by_cases hx : r = x
  · subst hx
    rw [setReg_setReg_self, setReg_setReg_self, h]
  · rw [← setReg_setReg_comm _ _ _ _ hx, ← setReg_setReg_comm _ _ _ _ hx, h]

theorem cfg : s.cfg = t.cfg := by
  have hset : s.setReg r 0 = t.setReg r 0 := h
  simpa using congrArg State.cfg hset

theorem setResultFlag (x : Reg) (d g : Byte) : State.SameBut r (s.setResultFlag x d g) (t.setResultFlag x d g) := by
  unfold State.setResultFlag
  rw [h.cfg]
  cases t.cfg.vfOrder
  · exact (h.setReg x d).setReg 15 g
  · exact (h.setReg 15 g).setReg x d

theorem advance : State.SameBut r s.advance t.advance := congrArg State.advance h

theorem countDraw : State.SameBut r s.countDraw t.countDraw := congrArg State.countDraw h

theorem setIdx (w : Word) : State.SameBut r (s.setIdx w) (t.setIdx w) := congrArg (State.setIdx w) h

theorem setDisplay (d : Display) : State.SameBut r (s.setDisplay d) (t.setDisplay d) :=
  congrArg (State.setDisplay d) h

theorem takeFault (e : Raise) (op : Word) : State.SameBut r (s.takeFault e op) (t.takeFault e op) :=
  congrArg (State.takeFault e op) h

theorem next : Result.map (State.setReg r 0) (.next s) = Result.map (State.setReg r 0) (.next t) :=
  congrArg Host.Outcome.next h

end State.SameBut

theorem Result.map_setReg_map_setReg (r : Reg) (b c : Byte) (q : Result) :
    Result.map (State.setReg r c) (Result.map (State.setReg r b) q) = Result.map (State.setReg r c) q := by
  cases q with
  | next t => exact congrArg Host.Outcome.next (State.setReg_setReg_self t r b c)
  | _ => rfl

/-- The registers after FX65 agree but for r, whether r is loaded or kept. -/
theorem State.sameBut_loadedRegs (s : State) (r : Reg) (b : Byte) (x : Reg) :
    State.SameBut r ((s.setReg r b).setRegs ((s.setReg r b).loadedRegs x)) (s.setRegs (s.loadedRegs x)) := by
  have hv : ((s.setReg r b).loadedRegs x).set r 0 = (s.loadedRegs x).set r 0 := by
    refine Vector.ext fun k hk => ?_
    by_cases hr : r = ⟨k, hk⟩
    · simp [hr]
    · have hne : r.val ≠ k := fun e => hr (Fin.ext e)
      simp [hne, State.loadedRegs, State.reg_setReg_of_ne s r b hr, State.base_setReg]
  rw [State.SameBut, State.setRegs_setReg, State.setReg_setRegs, State.setReg_setRegs, hv]

/-! ## Instructions that write no register -/

section
variable (s : State) (r : Reg) (b : Byte)

theorem exec_ret_setReg : exec .ret (s.setReg r b) = Result.map (State.setReg r b) (exec .ret s) := by
  rw [exec_ret, exec_ret, execRet, execRet, State.pop_setReg]
  cases s.pop <;> rfl

theorem exec_call_setReg (nnn : Imm12) :
    exec (.call nnn) (s.setReg r b) = Result.map (State.setReg r b) (exec (.call nnn) s) := by
  rw [exec_call, exec_call, execCall, execCall, State.setReg_pc, State.push_setReg]
  cases s.push (s.pc + 2) <;> rfl

theorem exec_jp_setReg (nnn : Imm12) :
    exec (.jp nnn) (s.setReg r b) = Result.map (State.setReg r b) (exec (.jp nnn) s) := by
  by_cases heq : zextImm nnn = s.pc
  · rw [exec_jp_of_eq heq, exec_jp_of_eq (s := s.setReg r b) heq]; rfl
  · rw [exec_jp_of_ne heq, exec_jp_of_ne (s := s.setReg r b) heq]; rfl

variable {r}

theorem exec_skp_setReg {x : Reg} (h : r ≠ x) :
    exec (.skp x) (s.setReg r b) = Result.map (State.setReg r b) (exec (.skp x) s) := by
  rw [exec_skp, exec_skp, execSkp, execSkp, State.reg_setReg_of_ne s r b h]
  cases keyIndex? (s.reg x) <;> rfl

theorem exec_sknp_setReg {x : Reg} (h : r ≠ x) :
    exec (.sknp x) (s.setReg r b) = Result.map (State.setReg r b) (exec (.sknp x) s) := by
  rw [exec_sknp, exec_sknp, execSknp, execSknp, State.reg_setReg_of_ne s r b h]
  cases keyIndex? (s.reg x) <;> rfl

theorem exec_ldBVx_setReg {x : Reg} (h : r ≠ x) :
    exec (.ldBVx x) (s.setReg r b) = Result.map (State.setReg r b) (exec (.ldBVx x) s) := by
  rw [exec_ldBVx, exec_ldBVx, execLdBVx, execLdBVx, State.reg_setReg_of_ne s r b h, State.base_setReg,
    State.storeBytes_setReg]
  cases rangeFault .memWriteOutOfRange s.base 3 <;> rfl

theorem exec_ldMemVx_setReg {x : Reg} (h : ¬ r ≤ x) :
    exec (.ldMemVx x) (s.setReg r b) = Result.map (State.setReg r b) (exec (.ldMemVx x) s) := by
  rw [exec_ldMemVx, exec_ldMemVx, execLdMemVx, execLdMemVx, State.dumpBytes_setReg s r b h, State.base_setReg,
    State.storeBytes_setReg]
  cases rangeFault .memWriteOutOfRange s.base (x.val + 1) <;> rfl

end

/-! ## All instructions -/

/-- Settles O47: an instruction that writes no register passes r through, so its two outcomes differ in r alone; one
that writes registers computes the same bytes from registers other than r, and its updates keep states that differ in
r alone such. -/
theorem unreadRegisterDoesNotMatter : Obligations.UnreadRegisterDoesNotMatter := by
  intro i s r b hr
  have hsame := State.SameBut.setReg_left s r b
  have hthrough : exec i (s.setReg r b) = Result.map (State.setReg r b) (exec i s) →
      Result.map (State.setReg r 0) (exec i (s.setReg r b)) = Result.map (State.setReg r 0) (exec i s) := fun h => by
    rw [h, Result.map_setReg_map_setReg]
  have hkeep := fun x => State.reg_setReg_of_ne s r b (x := x)
  cases i <;> simp only [Instr.readsReg, Bool.or_eq_false_iff, decide_eq_false_iff_not] at hr
  case cls => exact hthrough rfl
  case ret => exact hthrough (exec_ret_setReg s r b)
  case call nnn => exact hthrough (exec_call_setReg s r b nnn)
  case jp nnn => exact hthrough (exec_jp_setReg s r b nnn)
  case skp x => exact hthrough (exec_skp_setReg s b hr)
  case sknp x => exact hthrough (exec_sknp_setReg s b hr)
  case ldBVx x => exact hthrough (exec_ldBVx_setReg s b hr)
  case ldMemVx x => exact hthrough (exec_ldMemVx_setReg s b hr)
  case ldI nnn => exact hthrough rfl
  case seImm x nn => exact hthrough (by rw [exec_seImm, execSeImm]; simp only [hkeep x hr]; rfl)
  case sneImm x nn => exact hthrough (by rw [exec_sneImm, execSneImm]; simp only [hkeep x hr]; rfl)
  case seReg x y => exact hthrough (by rw [exec_seReg, execSeReg]; simp only [hkeep x hr.1, hkeep y hr.2]; rfl)
  case sneReg x y => exact hthrough (by rw [exec_sneReg, execSneReg]; simp only [hkeep x hr.1, hkeep y hr.2]; rfl)
  case jpV0 nnn => exact hthrough (by rw [exec_jpV0, execJpV0, hkeep _ hr]; rfl)
  case ldDtVx x => exact hthrough (by rw [exec_ldDtVx, execLdDtVx, hkeep x hr]; rfl)
  case ldStVx x => exact hthrough (by rw [exec_ldStVx, execLdStVx, hkeep x hr]; rfl)
  case ldFVx x => exact hthrough (by rw [exec_ldFVx, execLdFVx, hkeep x hr]; rfl)
  case ldImm x nn => exact (hsame.setReg x nn).advance.next
  case rnd x nn => exact (hsame.setReg x _).countDraw.advance.next
  case ldVxDt x => exact (hsame.setReg x s.dt).advance.next
  case addImm x nn =>
    rw [exec_addImm, execAddImm, hkeep x hr]
    exact (hsame.setReg x _).advance.next
  case ldReg x y =>
    rw [exec_ldReg, execLdReg, hkeep y hr]
    exact (hsame.setReg x _).advance.next
  case or x y =>
    rw [exec_or, execOr, hkeep x hr.1, hkeep y hr.2]
    exact (hsame.setReg x _).advance.next
  case and x y =>
    rw [exec_and, execAnd, hkeep x hr.1, hkeep y hr.2]
    exact (hsame.setReg x _).advance.next
  case xor x y =>
    rw [exec_xor, execXor, hkeep x hr.1, hkeep y hr.2]
    exact (hsame.setReg x _).advance.next
  case addReg x y =>
    rw [exec_addReg, execAddReg, hkeep x hr.1, hkeep y hr.2]
    exact (hsame.setResultFlag x _ _).advance.next
  case sub x y =>
    rw [exec_sub, execSub, hkeep x hr.1, hkeep y hr.2]
    exact (hsame.setResultFlag x _ _).advance.next
  case subn x y =>
    rw [exec_subn, execSubn, hkeep x hr.1, hkeep y hr.2]
    exact (hsame.setResultFlag x _ _).advance.next
  case shr x y =>
    rw [exec_shr, execShr, hkeep x hr]
    exact (hsame.setResultFlag x _ _).advance.next
  case shl x y =>
    rw [exec_shl, execShl, hkeep x hr]
    exact (hsame.setResultFlag x _ _).advance.next
  case ldVxK x =>
    rw [exec_ldVxK, exec_ldVxK, execLdVxK, execLdVxK, State.lowestKey_setReg]
    cases s.lowestKey with
    | none => exact hsame.next
    | some k => exact (hsame.setReg x _).advance.next
  case addIVx x =>
    rw [exec_addIVx, execAddIVx, hkeep x hr]
    exact ((hsame.setIdx _).setReg Reg.vf _).advance.next
  case drw x y n =>
    rw [exec_drw, exec_drw, execDrw, execDrw, hkeep x hr.1, hkeep y hr.2, State.base_setReg]
    cases rangeFault .memReadOutOfRange s.base n.val with
    | none => exact ((hsame.setDisplay _).setReg Reg.vf _).advance.next
    | some e => exact (hsame.takeFault e _).next
  case ldVxMem x =>
    rw [exec_ldVxMem, exec_ldVxMem, execLdVxMem, execLdVxMem, State.base_setReg]
    cases rangeFault .memReadOutOfRange s.base (x.val + 1) with
    | none => exact (State.sameBut_loadedRegs s r b x).advance.next
    | some e => exact (hsame.takeFault e _).next

end Sys2Proof.Machine
end

section
/-!
PROOFS. The step (30_encoding.md section 5, 60_exceptions.md): what a step finds to do, what it leaves in each case, and
the statements about faults, halts, waits and the beep that follow.
-/

namespace Sys2Proof.Machine

/-! ## What a step finds to do -/

/-- The word at pc, the lower address in the high byte (20_memory.md R215). -/
def State.wordAtPc (s : State) : Word := wordOfBytes (s.byteAt s.pc.toNat) (s.byteAt (s.pc.toNat + 1))

section
variable {s : State}

theorem work_of_decode_ok {i : Instr} (hs : s.status = .running) (hpc : s.pc.toNat ≤ 0xFFE)
    (hd : decode s.wordAtPc = .ok i) : s.work = .runs i :=
  (State.work_eq_runs s i).2 ⟨hs, _, State.fetch_ok hpc, hd⟩

theorem work_of_decode_error {e : Reject} (hs : s.status = .running) (hpc : s.pc.toNat ≤ 0xFFE)
    (hd : decode s.wordAtPc = .error e) : s.work = .raises ⟨.unknownOpcode, s.wordAtPc⟩ s.wordAtPc := by
  rw [State.wordAtPc] at hd
  simp [State.work, hs, State.fetch_ok hpc, hd, State.wordAtPc]

theorem work_of_pc_ge (hs : s.status = .running) (hpc : 0xFFF ≤ s.pc.toNat) :
    s.work = .raises ⟨.fetchOutOfRange, s.pc⟩ 0 := by
  simp [State.work, hs, State.fetch_error hpc]

end

/-! ## What a step leaves -/

/-- A step takes state s to state t. -/
inductive Stepped (s : State) : State → Prop
  | idle : s.status ≠ .running → Stepped s s
  | fetchFault : s.status = .running → 0xFFF ≤ s.pc.toNat → Stepped s (s.takeFault ⟨.fetchOutOfRange, s.pc⟩ 0)
  | illegal : s.status = .running → s.pc.toNat ≤ 0xFFE →
      Stepped s (s.takeFault ⟨.unknownOpcode, s.wordAtPc⟩ s.wordAtPc)
  | runs {i : Instr} {t : State} : s.status = .running → s.pc.toNat ≤ 0xFFE → decode s.wordAtPc = .ok i →
      exec i s = .next t → Stepped s (finishStep i s t).1

theorem exists_step (s : State) : ∃ t, step s = .next t ∧ Stepped s t := by
  by_cases hs : s.status = .running
  · rcases Nat.lt_or_ge 0xFFE s.pc.toNat with hpc | hpc
    · exact ⟨_, step_raises s (work_of_pc_ge hs hpc), .fetchFault hs hpc⟩
    · cases hd : decode s.wordAtPc with
      | error e => exact ⟨_, step_raises s (work_of_decode_error hs hpc hd), .illegal hs hpc⟩
      | ok i =>
        obtain ⟨t, ht, -⟩ := exec_cases i s
        exact ⟨_, step_runs s (work_of_decode_ok hs hpc hd) ht, .runs hs hpc hd ht⟩
  · exact ⟨s, step_idle s ((State.work_eq_idle s).2 hs), .idle hs⟩

theorem stepped_of_step {s t : State} (h : step s = .next t) : Stepped s t := by
  obtain ⟨u, hu, hstep⟩ := exists_step s
  obtain rfl : t = u := Host.Outcome.next.inj (h.symm.trans hu)
  exact hstep

/-! ## What a step adds after the instruction's own writes -/

/-- An instruction waits exactly when it is an FX0A and no key is pressed (44_keys_timers.md R803). -/
theorem waitsAt_iff (s : State) (i : Instr) :
    s.waitsAt i = true ↔ (∃ x, i = .ldVxK x) ∧ ∀ k : Fin 16, s.keys[k] = false := by
  cases i
  case ldVxK x =>
    rw [State.waitsAt, Option.isNone_iff_eq_none, State.lowestKey_eq_none]
    exact ⟨fun h => ⟨⟨x, rfl⟩, h⟩, fun h => h.2⟩
  all_goals simp [State.waitsAt]

theorem committed_iff (i : Instr) (s t : State) : committed i s t = true ↔
    t.status ≠ .faulted ∧ ¬ ((∃ x, i = .ldVxK x) ∧ ∀ k : Fin 16, s.keys[k] = false) := by
  rw [← waitsAt_iff, committed]
  simp [and_comm]

section
variable {i : Instr} {s t : State}

theorem finishStep_of_not_committed (h : ¬ (s.cfg.stepDecrementsTimers = true ∧ committed i s t = true)) :
    finishStep i s t = (t, false) := by
  rw [finishStep, if_neg (by simpa using h)]

theorem finishStep_of_faulted (h : t.status = .faulted) : finishStep i s t = (t, false) :=
  finishStep_of_not_committed fun hc => ((committed_iff i s t).1 hc.2).1 h

/-- A step adds nothing or one timer decrement. -/
theorem finishStep_fst_cases (i : Instr) (s t : State) :
    (finishStep i s t).1 = t ∨ (finishStep i s t).1 = t.timerDecrement.1 := by
  by_cases h : s.cfg.stepDecrementsTimers = true ∧ committed i s t = true
  · exact .inr (by rw [finishStep_of_committed h.1 h.2])
  · exact .inl (by rw [finishStep_of_not_committed h])

/-! So it keeps every field but the timers. -/

@[simp] theorem finishStep_cfg : (finishStep i s t).1.cfg = t.cfg := by
  rcases finishStep_fst_cases i s t with h | h <;> simp [h]

@[simp] theorem finishStep_pc : (finishStep i s t).1.pc = t.pc := by
  rcases finishStep_fst_cases i s t with h | h <;> simp [h]

@[simp] theorem finishStep_keys : (finishStep i s t).1.keys = t.keys := by
  rcases finishStep_fst_cases i s t with h | h <;> simp [h]

@[simp] theorem finishStep_status : (finishStep i s t).1.status = t.status := by
  rcases finishStep_fst_cases i s t with h | h <;> simp [h]

end

/-- The timer decrement as numbers. -/
theorem timerDecrement_fst_eq_decremented (s : State) : s.timerDecrement.1 = Spec.decremented s := by
  have hdec (b : Byte) : decTimer b = BitVec.ofNat 8 (b.toNat - 1) := by
    rw [← toNat_decTimer, BitVec.ofNat_toNat, BitVec.setWidth_eq]
  rw [Spec.decremented, ← hdec, ← hdec]
  rfl

/-! ## The statements -/

/-- Settles O34: the word decodes, so the step runs the instruction, and adds the decrement where it committed. -/
theorem stepRunsDecodedInstruction : Obligations.StepRunsDecodedInstruction := by
  intro i s t hs hpc hd ht
  rw [step_runs s (work_of_decode_ok hs hpc hd) ht]
  simp only [← committed_iff]
  split
  · rename_i h
    rw [finishStep_of_committed h.1 h.2, timerDecrement_fst_eq_decremented]
  · rename_i h
    rw [finishStep_of_not_committed h]

/-- Settles O35: fetch faults before anything else. -/
theorem fetchBeyondMemoryFaults : Obligations.FetchBeyondMemoryFaults :=
  fun s hs hpc => step_raises s (work_of_pc_ge hs hpc)

/-- Settles O32: the words that no arm of the decoder takes, and the fault entry of a step whose word is one. -/
theorem illegalWordsFault : Obligations.IllegalWordsFault := by
  refine ⟨decode_eq_error_iff, ?_⟩
  rintro s op hs hpc rfl hd
  exact step_raises s (work_of_decode_error hs hpc hd)

/-- Settles O36: `exists_step`, and its idle case for a stopped block. -/
theorem stepAlwaysAnswersNext : Obligations.StepAlwaysAnswersNext := by
  intro s
  obtain ⟨t, ht, -⟩ := exists_step s
  exact ⟨⟨t, ht⟩, fun hs => step_idle s ((State.work_eq_idle s).2 hs)⟩

/-- Settles O27: the wait leaves the state as it is and is no commit, so the step adds nothing. -/
theorem keyWaitChangesNothing : Obligations.KeyWaitChangesNothing := by
  intro x s hs hpc hd hkeys
  have hwait : exec (.ldVxK x) s = .next s := exec_ldVxK_of_none ((State.lowestKey_eq_none s).2 hkeys)
  rw [step_runs s (work_of_decode_ok hs hpc hd) hwait]
  rw [finishStep_of_not_committed fun h => ((committed_iff _ s s).1 h.2).2 ⟨⟨x, rfl⟩, hkeys⟩]

/-- Settles O37: in each faulting case the step's state is one fault entry; an instruction records its own word, which
is the fetched word (O31). -/
theorem faultIsPrecise : Obligations.FaultIsPrecise := by
  intro s t hs h ht
  cases stepped_of_step h with
  | idle hstop => exact absurd hs hstop
  | fetchFault _ hpc => exact ⟨rfl, by simp, fun hlow => by omega, fun _ => rfl⟩
  | illegal _ hpc => exact ⟨rfl, by simp, fun _ => rfl, fun hhigh => by omega⟩
  | @runs i u _ hpc hd hu =>
    have hfault : u.status = .faulted := by simpa using ht
    obtain ⟨r, hr, rfl⟩ := raises_of_faulted (effect_of_exec hu) (by simp [hs]) hfault
    rw [finishStep_of_faulted hfault]
    exact ⟨rfl, hr.kind_ne_noFault, fun _ => encodeOfDecode _ i hd, fun hhigh => by omega⟩

/-- Settles O39: of all effects, only the self-jump's leaves the status Halted. -/
theorem onlySelfJumpHalts : Obligations.OnlySelfJumpHalts := by
  intro s t hs h ht
  cases stepped_of_step h with
  | idle hstop => exact absurd hs hstop
  | fetchFault => simp at ht
  | illegal => simp at ht
  | @runs i u _ hpc hd hu =>
    rw [finishStep_status] at ht
    rw [finishStep_pc]
    cases effect_of_exec hu with
    | halt nnn heq =>
      refine ⟨rfl, hpc, nnn, (encodeOfDecode _ _ hd).symm, ?_⟩
      rw [← heq, toNat_zextImm]
    | _ => simp [hs] at ht

/-- No instruction touches the keys or the parameters. -/
theorem exec_keys_cfg {i : Instr} {s t : State} (h : exec i s = .next t) : t.keys = s.keys ∧ t.cfg = s.cfg := by
  obtain ⟨u, hu, hcases⟩ := exec_cases i s
  obtain rfl : t = u := Host.Outcome.next.inj (h.symm.trans hu)
  rcases hcases with ⟨r, -, rfl⟩ | hcommit
  · exact ⟨rfl, rfl⟩
  · exact ⟨hcommit.keys, hcommit.cfg⟩

/-- Settles O49: no instruction, no fault entry and no timer decrement touches the keys or the parameters. -/
theorem stepKeepsKeysAndParameters : Obligations.StepKeepsKeysAndParameters := by
  intro s t h
  cases stepped_of_step h with
  | runs _ _ _ hu =>
    rw [finishStep_keys, finishStep_cfg]
    exact exec_keys_cfg hu
  | _ => exact ⟨rfl, rfl⟩

/-! ## The beep -/

theorem stepBeep_of_applyOp_step {s u : State} {r : StepResult} {beep : Bool}
    (h : s.applyOp .step = .next (u, .stepped r beep)) : stepBeep s = .next (u, beep) := by
  obtain ⟨t, b, hb⟩ := stepBeep_eq_next s
  rw [State.applyOp_step_of_stepBeep hb] at h
  cases h
  exact hb

theorem finishStep_beep_iff (i : Instr) (s t : State) : (finishStep i s t).2 = true ↔
    s.cfg.stepDecrementsTimers = true ∧ committed i s t = true ∧ t.st = 1 := by
  by_cases h : s.cfg.stepDecrementsTimers = true ∧ committed i s t = true
  · simp [finishStep_of_committed h.1 h.2, h]
  · simp [finishStep_of_not_committed h, ← and_assoc, h]

/-- Settles O53: a step that runs an instruction takes its beep from `finishStep`; any other gives none. -/
theorem stepBeepsOnLastDecrement : Obligations.StepBeepsOnLastDecrement := by
  intro s u r beep h
  have hbeep := stepBeep_of_applyOp_step h
  refine ⟨fun i t hwork ht => ?_, ?_⟩
  · rw [stepBeep_runs hwork ht] at hbeep
    rw [← finishStep_beep_iff, Host.Outcome.next.inj hbeep]
  · rintro (hidle | ⟨f, op, hraises⟩)
    · rw [stepBeep_idle hidle] at hbeep
      cases hbeep; rfl
    · rw [stepBeep_raises hraises] at hbeep
      cases hbeep; rfl

end Sys2Proof.Machine
end

section
/-!
PROOFS. The invariant (`State.Inv`): it holds after reset, every step keeps it, and so does every other operation, so
every reachable block meets it.
-/

namespace Sys2Proof.Machine

/-! ## Memory -/

/-- The two stores check their whole range before they write, so the canonical form stays (20_memory.md R210). -/
theorem Effect.memory_wf {s t : State} {i : Instr} (h : Effect s i t) (hs : Memory.wf s.cfg.font s.mem) :
    Memory.wf t.cfg.font t.mem := by
  cases h with
  | bcd x hle => simpa using State.wf_storeBytes s s.base (bcdDigits (s.reg x)) hs hle
  | dump x hle => simpa using State.wf_storeBytes s s.base (s.dumpBytes x) hs (by simpa using hle)
  | call | ret => exact hs
  | _ => simpa using hs

/-! ## Program counter and return addresses -/

theorem toNat_add_le (v w : Word) : (v + w).toNat ≤ v.toNat + w.toNat := by
  rw [BitVec.toNat_add]
  exact Nat.mod_le _ _

/-- "advance" does not wrap where a step executes (10_state.md R118). -/
theorem toNat_add_two {w : Word} (h : w.toNat ≤ 0xFFE) : (w + 2).toNat = w.toNat + 2 := by
  rw [BitVec.toNat_add]
  exact Nat.mod_eq_of_lt (Nat.lt_of_le_of_lt (Nat.add_le_add_right h 2) (by decide))

theorem SkipsBy.toNat_le {s : State} {i : Instr} {d : Word} (h : SkipsBy s i d) : d.toNat ≤ 4 := by
  cases h <;> split <;> decide

/-- BNNN reaches highest (10_state.md R118); a return takes pc from a slot, every other effect from pc or NNN. -/
theorem Effect.toNat_pc_le {s t : State} {i : Instr} (h : Effect s i t) (hpc : s.pc.toNat ≤ 0xFFE)
    (hstack : ∀ j : Fin 16, (s.stack[j]).toNat ≤ 0x1000) : t.pc.toNat ≤ 0x10FE := by
  have hadvance := toNat_add_two hpc
  cases h with
  | fault | wait | halt => simp; omega
  | @skip _ d hskip =>
    have hd := hskip.toNat_le
    have hsum := toNat_add_le s.pc d
    simp only [State.setPc_pc]
    omega
  | jump nnn =>
    have := nnn.isLt
    simp only [State.setPc_pc, toNat_zextImm]
    omega
  | jumpV0 nnn =>
    have := nnn.isLt
    have := (s.reg Reg.v0).isLt
    simp only [State.setPc_pc, toNat_zextImm_add_zextByte]
    omega
  | call nnn hlt =>
    have := nnn.isLt
    simp only [toNat_zextImm]
    omega
  | ret hpos =>
    have := hstack ⟨s.sp.val - 1, by omega⟩
    simp only
    exact Nat.le_trans this (by decide)
  | _ => simp only [State.advance_pc]; simp; omega

/-- A call pushes pc + 2, at most 0x1000 where a step executes; no other effect writes a slot (R403). -/
theorem Effect.toNat_stack_le {s t : State} {i : Instr} (h : Effect s i t) (hpc : s.pc.toNat ≤ 0xFFE)
    (hstack : ∀ j : Fin 16, (s.stack[j]).toNat ≤ 0x1000) (j : Fin 16) : (t.stack[j]).toNat ≤ 0x1000 := by
  cases h with
  | call nnn hlt =>
    have hpush := toNat_add_two hpc
    have hold := hstack j
    simp only [Fin.getElem_fin, Vector.getElem_set]
    split
    · omega
    · exact hold
  | ret => exact hstack j
  | _ => simpa using hstack j

/-! ## The invariant -/

section
variable {s t : State}

theorem State.Inv.takeFault (hs : s.Inv) {r : Raise} (hr : r.kind ≠ .noFault) (op : Word) : (s.takeFault r op).Inv where
  memCanonical := hs.memCanonical
  pcRange := hs.pcRange
  stackRange := hs.stackRange
  faultRecorded := ⟨fun _ => hr, fun _ => rfl⟩
  emptyRecord := fun h => absurd h hr
  faultPc := fun _ => rfl

/-- An update that keeps pc, stack, status and record keeps the invariant if it keeps memory canonical. -/
theorem State.Inv.of_memory_wf (hs : s.Inv) (hm : Memory.wf t.cfg.font t.mem) (hpc : t.pc = s.pc)
    (hstack : t.stack = s.stack) (hstatus : t.status = s.status) (hfault : t.fault = s.fault) : t.Inv where
  memCanonical := hm
  pcRange := hpc ▸ hs.pcRange
  stackRange := hstack ▸ hs.stackRange
  faultRecorded := by rw [hstatus, hfault]; exact hs.faultRecorded
  emptyRecord := by rw [hfault]; exact hs.emptyRecord
  faultPc := by rw [hstatus, hfault, hpc]; exact hs.faultPc

theorem State.Inv.timerDecrement (hs : s.Inv) : s.timerDecrement.1.Inv :=
  hs.of_memory_wf hs.memCanonical rfl rfl rfl rfl

theorem State.Inv.finishStep (ht : t.Inv) (i : Instr) (s : State) : (finishStep i s t).1.Inv := by
  rcases finishStep_fst_cases i s t with h | h <;> rw [h]
  · exact ht
  · exact ht.timerDecrement

/-- A running block has the empty record. -/
theorem State.Inv.kind_of_running (hs : s.Inv) (hrun : s.status = .running) : s.fault.kind = .noFault := by
  by_contra h
  have := hs.faultRecorded.2 h
  rw [hrun] at this
  cases this

/-- Every instruction that a step executes keeps the invariant: its fault entry by `Inv.takeFault`, its commit because
the record stays empty and the status is no fault. -/
theorem State.Inv.exec {i : Instr} (hs : s.Inv) (hrun : s.status = .running) (hpc : s.pc.toNat ≤ 0xFFE)
    (h : exec i s = .next t) : t.Inv := by
  have heffect := effect_of_exec h
  obtain ⟨u, hu, hcases⟩ := exec_cases i s
  obtain rfl : t = u := Host.Outcome.next.inj (h.symm.trans hu)
  rcases hcases with ⟨r, hr, rfl⟩ | hcommit
  · exact hs.takeFault hr _
  · have hkind : t.fault.kind = .noFault := by rw [hcommit.fault]; exact hs.kind_of_running hrun
    have hstatus : t.status ≠ .faulted := by
      rcases hcommit.status with hst | hst <;> simp [hst, hrun]
    exact {
      memCanonical := heffect.memory_wf hs.memCanonical
      pcRange := heffect.toNat_pc_le hpc hs.stackRange
      stackRange := heffect.toNat_stack_le hpc hs.stackRange
      faultRecorded := ⟨fun hf => absurd hf hstatus, fun hk => absurd hkind hk⟩
      emptyRecord := by rw [hcommit.fault]; exact hs.emptyRecord
      faultPc := fun hf => absurd hf hstatus }

end

/-- Settles O41: along what a step can do, a stopped block stays, a fault entry and an instruction keep the invariant,
and so does the timer decrement after it. -/
theorem stepKeepsInvariant : Obligations.StepKeepsInvariant := by
  intro s t hs h
  cases stepped_of_step h with
  | idle => exact hs
  | fetchFault => exact hs.takeFault (by simp) _
  | illegal => exact hs.takeFault (by simp) _
  | runs hrun hpc _ ht => exact (hs.exec hrun hpc ht).finishStep _ s

/-! ## Reset and reachable blocks -/

theorem State.Inv.initial (cfg : Config) (n : Nat) : (State.initial cfg n).Inv where
  memCanonical := Memory.wf_nil cfg.font
  pcRange := by show (0x0200#16).toNat ≤ 0x10FE; decide
  stackRange := fun j => by simp [State.initial]
  faultRecorded := by simp [State.initial, FaultRecord.empty]
  emptyRecord := fun _ => rfl
  faultPc := by simp [State.initial]

/-- Settles O40: the reset state is an initial state. -/
theorem invariantAtReset : Obligations.InvariantAtReset :=
  ⟨State.Inv.initial Config.default 0, State.Inv.initial⟩

/-- An image that fits is stored inside memory (70_reset_and_hazards.md R1010). -/
theorem State.Inv.loadProgram {s : State} (hs : s.Inv) (bytes : List Byte) : (s.loadProgram bytes).1.Inv := by
  unfold State.loadProgram
  split
  · exact hs
  · rename_i hfits
    refine hs.of_memory_wf ?_ (by simp) (by simp) (by simp) (by simp)
    rw [State.storeBytes_cfg]
    exact State.wf_storeBytes s 0x200 bytes hs.memCanonical (by simp only [maxImage, memSize] at *; omega)

/-- Every operation on an initialised block keeps the invariant. -/
theorem State.Inv.applyOp {s t : State} {op : HostOp} {out : OpOutput} (hs : s.Inv)
    (h : s.applyOp op = .next (t, out)) : t.Inv := by
  cases op with
  | initializeBlock => cases h; exact State.Inv.initial _ _
  | loadProgram bytes =>
    have ht : (s.loadProgram bytes).1 = t := congrArg Prod.fst (Host.Outcome.next.inj h)
    exact ht ▸ hs.loadProgram bytes
  | step =>
    obtain ⟨u, beep, hb⟩ := stepBeep_eq_next s
    rw [State.applyOp_step_of_stepBeep hb] at h
    cases h
    exact stepKeepsInvariant s _ hs (step_of_stepBeep hb)
  | tickTimers => cases h; exact hs.timerDecrement
  | setKeys keys => cases h; exact hs.of_memory_wf hs.memCanonical rfl rfl rfl rfl
  | consumeDrawFlag => cases h; exact hs.of_memory_wf hs.memCanonical rfl rfl rfl rfl
  | hasHalted => cases h; exact hs
  | readDisplay => cases h; exact hs
  | readStatus => cases h; exact hs
  | readFault => cases h; exact hs

theorem applyOp_ready {s : State} {b : Block} {op : HostOp} {out : OpOutput}
    (h : applyOp (.ready s) op = .next (b, out)) : ∃ t, b = .ready t ∧ s.applyOp op = .next (t, out) := by
  cases hs : s.applyOp op <;> simp only [applyOp, hs] at h <;> cases h
  exact ⟨_, rfl, rfl⟩

/-- Settles O42: by induction over the operations; the first `initialize` gives an initial state, and every later
operation keeps the invariant. -/
theorem reachableBlocksMeetInvariant : Obligations.ReachableBlocksMeetInvariant := by
  intro s h
  generalize hb : Block.ready s = b at h
  induction h generalizing s with
  | start cfg => cases hb
  | @op b b' o out _ ho ih =>
    subst hb
    cases b with
    | uninitialised cfg =>
      cases o with
      | initializeBlock => cases ho; exact State.Inv.initial cfg 0
      | _ => cases ho
    | ready u =>
      obtain ⟨t, ht, hop⟩ := applyOp_ready ho
      obtain rfl : s = t := Block.ready.inj ht
      exact (ih u rfl).applyOp hop

end Sys2Proof.Machine
end

section
/-!
PROOFS. Index register and memory transfer (42_index_memory.md, 20_memory.md): digits, dump, load, the bounds faults, a
store over code, a loaded image, and the canonical form of memory.
-/

namespace Sys2Proof.Machine

/-! ## Stores -/

/-- A store and the advance, as an update of two fields. -/
theorem State.advance_storeBytes (a : Nat) (bs : List Byte) (s : State) :
    (s.storeBytes a bs).advance = { s with mem := (s.storeBytes a bs).mem, pc := s.pc + 2 } := by
  rw [State.storeBytes_eq]
  rfl

/-- A store, a write of I and the advance, as an update of three fields. -/
theorem State.advance_setIdx_storeBytes (a : Nat) (bs : List Byte) (w : Word) (s : State) :
    ((s.storeBytes a bs).setIdx w).advance =
      { s with mem := (s.storeBytes a bs).mem, idx := w, pc := s.pc + 2 } := by
  rw [State.storeBytes_eq]
  rfl

/-! ## Digits -/

section
variable (b : Byte)

theorem toNat_trunc8_of_lt {n : Nat} (h : n < 256) : (trunc8 n).toNat = n := by
  simp [trunc8, Nat.mod_eq_of_lt h]

theorem toNat_hundreds : (trunc8 (b.toNat / 100)).toNat = b.toNat / 100 := by
  have := b.isLt
  exact toNat_trunc8_of_lt (by omega)

theorem toNat_tens : (trunc8 (b.toNat / 10 % 10)).toNat = b.toNat / 10 % 10 := toNat_trunc8_of_lt (by omega)

theorem toNat_ones : (trunc8 (b.toNat % 10)).toNat = b.toNat % 10 := toNat_trunc8_of_lt (by omega)

end

/-- Settles O15: the three bytes stored are the quotients and remainders by 100 and 10, which are the digits. -/
theorem bcdDigitsStored : Obligations.BcdDigitsStored := by
  intro x s hle
  have hstored (k : Nat) (hk : k < 3) :
      (s.storeBytes s.base (bcdDigits (s.reg x))).advance.byteAt (s.idx.toNat + k) = (bcdDigits (s.reg x))[k] :=
    State.byteAt_storeBytes_inside s s.base (bcdDigits (s.reg x)) k hk
  have hfirst : (s.storeBytes s.base (bcdDigits (s.reg x))).advance.byteAt s.idx.toNat = (bcdDigits (s.reg x))[0] :=
    hstored 0 (by decide)
  have hb := (s.reg x).isLt
  refine ⟨_, exec_ldBVx_of_le x (by rw [State.base]; omega), ?_⟩
  rw [hfirst, hstored 1 (by decide), hstored 2 (by decide)]
  simp only [bcdDigits, List.getElem_cons_zero, List.getElem_cons_succ, toNat_hundreds, toNat_tens, toNat_ones]
  refine ⟨by omega, by omega, by omega, ?sum, fun a ha => ?frame, s.advance_storeBytes ..⟩
  case sum =>
    show _ = (s.reg x).toNat
    omega
  case frame =>
    exact State.byteAt_storeBytes_outside s s.base (bcdDigits (s.reg x)) a
      (by simp only [State.base, length_bcdDigits]; omega)

/-! ## Dump and load -/

/-- Settles O16: the bytes stored are V0..VX, and `State.byteAt_storeBytes` says what every address reads. -/
theorem registerDump : Obligations.RegisterDump := by
  intro x s hle
  refine ⟨_, exec_ldMemVx_of_le x (by rw [State.base]; omega), fun k hk => ?_, fun a ha => ?_,
    s.advance_setIdx_storeBytes ..⟩
  · have hlen : k.val < (s.dumpBytes x).length := by
      rw [State.length_dumpBytes]
      exact Nat.lt_succ_of_le hk
    rw [State.byteAt_advance, State.byteAt_setIdx]
    exact (State.byteAt_storeBytes_inside s s.base _ k.val hlen).trans (State.getElem_dumpBytes s x k.val hlen)
  · rw [State.byteAt_advance, State.byteAt_setIdx]
    exact State.byteAt_storeBytes_outside s s.base _ a (by simp only [State.base, State.length_dumpBytes]; omega)

/-- A write of the register file and the advance, as an update of two fields. -/
theorem State.advance_setRegs (v : Vector Byte 16) (s : State) :
    (s.setRegs v).advance = { s with v := v, pc := s.pc + 2 } := rfl

/-- Settles O17: register k of the loaded file is the byte at I + k up to X, and the old register above. -/
theorem registerLoad : Obligations.RegisterLoad := by
  intro x s hle
  have hloaded (k : Reg) : (s.setRegs (s.loadedRegs x)).advance.v[k] =
      if k ≤ x then s.byteAt (s.idx.toNat + k.val) else s.reg k := State.reg_setRegs_loadedRegs s x k
  refine ⟨_, exec_ldVxMem_of_le x (by rw [State.base]; omega), fun k hk => ?_, fun k hk => ?_,
    s.advance_setRegs ..⟩
  · rw [hloaded, if_pos hk]
  · rw [hloaded, if_neg (not_le_of_gt hk)]
    rfl

/-- Settles O18: the load reads the bytes that the dump stored (O16, O17), because w reads like the state it left. -/
theorem dumpThenLoadRestoresRegisters : Obligations.DumpThenLoadRestoresRegisters := by
  intro x s t w hle ht hmem hcfg hidx
  obtain ⟨t', ht', hdumped, -, -⟩ := registerDump x s hle
  obtain rfl : t = t' := Host.Outcome.next.inj (ht.symm.trans ht')
  obtain ⟨u, hu, hloaded, hkept, hframe⟩ := registerLoad x w (by rw [hidx]; exact hle)
  refine ⟨u, hu, fun k hk => ?_, hkept, ?_⟩
  · rw [hloaded k hk, hidx, State.byteAt_congr hcfg hmem, hdumped k hk]
  · rw [hframe]
    exact hmem

/-- Settles O20: the dump's bytes are what fetch reads at the new pc (O16). -/
theorem storedCodeIsFetched : Obligations.StoredCodeIsFetched := by
  intro x s t k hk hle hpc ht hat
  obtain ⟨t', ht', hdumped, -, hframe⟩ := registerDump x s hle
  obtain rfl : t = t' := Host.Outcome.next.inj (ht.symm.trans ht')
  have hx := x.isLt
  have htpc : t.pc.toNat = s.idx.toNat + k := by
    have hadd : t.pc = s.pc + 2 := by rw [hframe]
    rw [hadd, toNat_add_two hpc, hat]
  rw [State.fetch_ok (by omega), htpc, Nat.add_assoc]
  have hhigh := hdumped ⟨k, by omega⟩ (show k ≤ x.val by omega)
  have hlow := hdumped ⟨k + 1, by omega⟩ hk
  rw [hhigh, hlow]
  rfl

/-! ## Bounds faults -/

/-- The lowest address above 0xFFF that a range touches is its start, or 0x1000 (D6). -/
theorem max_eq_of_lowest {base k : Nat} (hk : base + k > 0xFFF) (hlow : ∀ j < k, base + j ≤ 0xFFF) :
    max base 0x1000 = base + k := by
  cases k with
  | zero => omega
  | succ k =>
    have := hlow k (Nat.lt_succ_self k)
    omega

/-- Settles O19: the bounds check of each of the four, on either side of 0x1000. -/
theorem memoryBoundsFaults : Obligations.MemoryBoundsFaults := by
  intro i kind count s hform
  refine ⟨fun k hk hgt hlow => ?_, fun hle => ?_⟩
  · have hmax : max s.base 0x1000 = s.idx.toNat + k := max_eq_of_lowest hgt hlow
    have hover : 0x1000 < s.base + count := by rw [State.base]; omega
    rcases hform with ⟨x, rfl, rfl, rfl⟩ | ⟨x, rfl, rfl, rfl⟩ | ⟨x, rfl, rfl, rfl⟩ | ⟨x, y, n, rfl, rfl, rfl⟩
    · rw [exec_ldBVx_of_gt x hover, hmax]; rfl
    · rw [exec_ldMemVx_of_gt x hover, hmax]; rfl
    · rw [exec_ldVxMem_of_gt x hover, hmax]; rfl
    · rw [exec_drw_of_gt x y (by omega) hover, hmax]; rfl
  · have hfits : count = 0 ∨ s.base + count ≤ 0x1000 := by
      rcases Nat.eq_zero_or_pos count with h0 | hpos
      · exact .inl h0
      · have := hle (count - 1) (by omega)
        exact .inr (by rw [State.base]; omega)
    rcases hform with ⟨x, rfl, rfl, rfl⟩ | ⟨x, rfl, rfl, rfl⟩ | ⟨x, rfl, rfl, rfl⟩ | ⟨x, y, n, rfl, rfl, rfl⟩
    · exact ⟨_, exec_ldBVx_of_le x (hfits.resolve_left (by decide)), by simp, by simp⟩
    · exact ⟨_, exec_ldMemVx_of_le x (hfits.resolve_left (Nat.succ_ne_zero _)), by simp, by simp⟩
    · exact ⟨_, exec_ldVxMem_of_le x (hfits.resolve_left (Nat.succ_ne_zero _)), by simp, by simp⟩
    · exact ⟨_, exec_drw_of_le x y hfits, by simp, by simp⟩

/-! ## A loaded image -/

/-- Settles O55: an image that fits is one store from 0x200 on; a longer one is refused before any write. -/
theorem loadProgramCopiesImage : Obligations.LoadProgramCopiesImage := by
  intro s bytes
  refine ⟨fun hfits => ⟨s.storeBytes 0x200 bytes, ?_, ?_, ?_, s.storeBytes_eq 0x200 bytes⟩, fun hlong => ?_⟩
  · rw [State.applyOp, State.loadProgram, if_neg (Nat.not_lt.mpr hfits)]
  · exact State.byteAt_storeBytes_inside s 0x200 bytes
  · exact State.byteAt_storeBytes_outside s 0x200 bytes
  · rw [State.applyOp, State.loadProgram, if_pos hlong]

/-! ## The canonical form -/

section
variable {font : Vector (Vector Byte 5) 16} {m : Memory} {a : Nat} {b : Byte}

theorem Memory.mem_of_find (h : Memory.find a m = some b) : (a, b) ∈ m := by
  induction m with
  | nil => cases h
  | cons c rest ih =>
    unfold Memory.find at h
    split at h
    · cases h; simp_all
    · exact List.mem_cons_of_mem _ (ih h)

theorem Memory.find_of_mem (hm : m.Pairwise (fun c d => c.1 < d.1)) (h : (a, b) ∈ m) : Memory.find a m = some b := by
  induction m with
  | nil => cases h
  | cons c rest ih =>
    obtain ⟨hlt, hrest⟩ := List.pairwise_cons.1 hm
    unfold Memory.find
    rcases List.mem_cons.1 h with rfl | h
    · simp
    · rw [if_neg (Nat.ne_of_gt (hlt _ h)), ih hrest h]

/-- A canonical memory lists exactly the bytes that read otherwise than the reset contents. -/
theorem Memory.mem_iff_read (hm : Memory.wf font m) :
    (a, b) ∈ m ↔ a < memSize ∧ Memory.read font m a = b ∧ b ≠ resetByte font a := by
  obtain ⟨hsorted, hcells⟩ := hm
  constructor
  · intro h
    obtain ⟨ha, hb⟩ := hcells _ h
    exact ⟨ha, by simp [Memory.read, Memory.find_of_mem hsorted h], hb⟩
  · rintro ⟨-, hread, hne⟩
    unfold Memory.read at hread
    cases hfind : Memory.find a m with
    | none => simp [hfind] at hread; exact absurd hread.symm hne
    | some c =>
      obtain rfl : c = b := by simpa [hfind] using hread
      exact Memory.mem_of_find hfind

end

/-- Settles O43: memories that read alike list the same cells, and a list in rising address order is determined by its
cells. -/
theorem canonicalMemoryIsUnique : Obligations.CanonicalMemoryIsUnique := by
  intro s t hfont hs ht hread
  rw [← hfont] at ht
  have hmem (c : Host.Cell) : c ∈ s.mem ↔ c ∈ t.mem := by
    obtain ⟨a, b⟩ := c
    rw [Memory.mem_iff_read hs, Memory.mem_iff_read ht]
    refine and_congr_right fun ha => ?_
    have := hread a ha
    rw [State.byteAt, State.byteAt, ← hfont] at this
    rw [this]
  have : Std.Irrefl fun c d : Host.Cell => c.1 < d.1 := ⟨fun c => Nat.lt_irrefl c.1⟩
  have : Std.Antisymm fun c d : Host.Cell => c.1 < d.1 := ⟨fun _ _ h h' => absurd h' (Nat.lt_asymm h)⟩
  exact List.Pairwise.eq_of_mem_iff hs.1 ht.1 hmem

end Sys2Proof.Machine
end

section
/-!
PROOFS. The display (43_display.md): the pixels that a sprite covers are drawn once each, so DXYN flips exactly those,
reports exactly whether one was set, and a second draw restores them.
-/

namespace Sys2Proof.Machine

/-! ## Drawing a list of pixels -/

/-- A pixel after drawing a list without repetition is flipped exactly when it stands in the list. -/
theorem pixel_drawPixels {js : List Nat} (hnodup : js.Nodup) (hlt : ∀ j ∈ js, j < 2048) (acc : Display × Bool)
    (k : Nat) :
    Display.pixel (drawPixels js acc).1 k = (Display.pixel acc.1 k ^^ decide (k ∈ js)) := by
  induction js generalizing acc with
  | nil => simp
  | cons j js ih =>
    obtain ⟨hj, hnodup⟩ := List.nodup_cons.1 hnodup
    rw [drawPixels_cons, ih hnodup (fun i hi => hlt i (List.mem_cons_of_mem j hi)), Display.pixel_toggle]
    have hjlt := hlt j List.mem_cons_self
    by_cases hk : k = j
    · subst hk; simp [hj, hjlt]
    · simp [hk]

/-- The collision collected is that of a pixel set before, since no pixel is met twice. -/
theorem drawPixels_collides {js : List Nat} (hnodup : js.Nodup) (acc : Display × Bool) :
    (drawPixels js acc).2 = true ↔ acc.2 = true ∨ ∃ j ∈ js, Display.pixel acc.1 j = true := by
  induction js generalizing acc with
  | nil => simp
  | cons j js ih =>
    obtain ⟨hj, hnodup⟩ := List.nodup_cons.1 hnodup
    have hkeep : ∀ i ∈ js, Display.pixel (Display.toggle acc.1 j) i = Display.pixel acc.1 i := fun i hi => by
      have : i ≠ j := fun e => hj (e ▸ hi)
      simp [Display.pixel_toggle, this]
    rw [drawPixels_cons, ih hnodup]
    simp only [Bool.or_eq_true, List.mem_cons, exists_eq_or_imp, or_assoc]
    refine or_congr_right (or_congr_right (exists_congr fun i => and_congr_right fun hi => ?_))
    rw [hkeep i hi]

/-! ## The pixels of a sprite -/

theorem mem_rowPixels {x0 y : Nat} {b : Byte} {j : Nat} :
    j ∈ rowPixels x0 y b ↔ ∃ c < 8, b.getLsbD (7 - c) = true ∧ j = pixelIndex (x0 + c) y := by
  simp only [rowPixels, List.mem_map, List.mem_filter, List.mem_range, and_assoc, eq_comm (a := j)]

theorem mem_spritePixels {x0 y0 : Nat} {rows : List Byte} {j : Nat} :
    j ∈ spritePixels x0 y0 rows ↔
      ∃ r, ∃ h : r < rows.length, ∃ c < 8, rows[r].getLsbD (7 - c) = true ∧ j = pixelIndex (x0 + c) (y0 + r) := by
  simp only [spritePixels, List.mem_flatMap, mem_rowPixels, Prod.exists, List.mk_mem_zipIdx_iff_getElem?,
    List.getElem?_eq_some_iff]
  constructor
  · rintro ⟨b, r, ⟨h, rfl⟩, hc⟩
    exact ⟨r, h, hc⟩
  · rintro ⟨r, h, hc⟩
    exact ⟨_, r, ⟨h, rfl⟩, hc⟩

/-- A pixel has one index, up to the wrap at both edges (R703). -/
theorem pixelIndex_eq_iff {x y x' y' : Nat} :
    pixelIndex x y = pixelIndex x' y' ↔ x % 64 = x' % 64 ∧ y % 32 = y' % 32 := by
  unfold pixelIndex
  omega

/-- Eight columns wrap onto no pixel twice, the display being 64 wide. -/
theorem rowPixels_nodup (x0 y : Nat) (b : Byte) : (rowPixels x0 y b).Nodup := by
  refine List.Nodup.map_on (fun c hc d hd h => ?_) (List.nodup_range.filter _)
  have hc8 : c < 8 := List.mem_range.1 (List.mem_of_mem_filter hc)
  have hd8 : d < 8 := List.mem_range.1 (List.mem_of_mem_filter hd)
  obtain ⟨hx, -⟩ := pixelIndex_eq_iff.1 h
  omega

/-- At most 32 rows wrap onto no row twice. -/
theorem spritePixels_nodup (x0 y0 : Nat) {rows : List Byte} (h : rows.length ≤ 32) :
    (spritePixels x0 y0 rows).Nodup := by
  have hrise : rows.zipIdx.Pairwise fun p q => p.2 < q.2 := by
    rw [← List.pairwise_map (f := Prod.snd), List.zipIdx_map_snd]
    exact List.pairwise_lt_range'
  refine List.nodup_flatMap.2 ⟨fun p _ => rowPixels_nodup _ _ _, hrise.imp_of_mem fun {p q} hp hq hlt => ?_⟩
  have hq32 : q.2 < rows.length := List.snd_lt_of_mem_zipIdx hq
  intro j hjp hjq
  obtain ⟨c, -, -, rfl⟩ := mem_rowPixels.1 hjp
  obtain ⟨d, -, -, hd⟩ := mem_rowPixels.1 hjq
  obtain ⟨-, hy⟩ := pixelIndex_eq_iff.1 hd
  omega

/-! ## What DXYN draws -/

/-- The pixels under set bits of the sprite that DXYN draws, as indices. -/
def State.coveredPixels (s : State) (x y : Reg) (n : Fin 16) : List Nat :=
  spritePixels (s.reg x).toNat (s.reg y).toNat (s.loadBytes s.base n.val)

section
variable (s : State) (x y : Reg) (n : Fin 16)

theorem State.drawn_eq : s.drawn x y n = drawPixels (s.coveredPixels x y n) (s.disp, false) := rfl

theorem State.coveredPixels_nodup : (s.coveredPixels x y n).Nodup :=
  spritePixels_nodup _ _ (by rw [State.length_loadBytes]; omega)

variable {s x y n}

theorem State.lt_of_mem_coveredPixels {j : Nat} (h : j ∈ s.coveredPixels x y n) : j < 2048 := by
  obtain ⟨r, _, c, -, -, rfl⟩ := mem_spritePixels.1 h
  exact pixelIndex_lt _ _

/-- The indices are those of the pixels that the statements call covered (R703). -/
theorem State.mem_coveredPixels {px : Nat} (hpx : px < 64) (py : Nat) :
    py * 64 + px ∈ s.coveredPixels x y n ↔ s.spriteCovers x y n px py := by
  have hindex (a b : Nat) : py * 64 + px = pixelIndex a b ↔ px = a % 64 ∧ py = b % 32 := by
    unfold pixelIndex
    omega
  simp only [State.coveredPixels, mem_spritePixels, State.spriteCovers, State.length_loadBytes, State.getElem_loadBytes,
    hindex, exists_prop]
  rfl

/-- A statement about some covered pixel, by its index or by its coordinates. -/
theorem State.exists_coveredPixels (p : Nat → Prop) : (∃ j ∈ s.coveredPixels x y n, p j) ↔
    ∃ px < 64, ∃ py < 32, s.spriteCovers x y n px py ∧ p (py * 64 + px) := by
  constructor
  · rintro ⟨j, hj, hp⟩
    have hlt := State.lt_of_mem_coveredPixels hj
    have hsplit : j / 64 * 64 + j % 64 = j := by omega
    refine ⟨j % 64, by omega, j / 64, by omega, ?_, by rwa [hsplit]⟩
    rwa [← State.mem_coveredPixels (by omega), hsplit]
  · rintro ⟨px, hpx, py, hpy, hcover, hp⟩
    exact ⟨_, (State.mem_coveredPixels hpx py).2 hcover, hp⟩

theorem State.pixel_drawn (k : Nat) :
    Display.pixel (s.drawn x y n).1 k = (Display.pixel s.disp k ^^ decide (k ∈ s.coveredPixels x y n)) :=
  pixel_drawPixels (s.coveredPixels_nodup x y n) (fun _ => State.lt_of_mem_coveredPixels) _ k

theorem State.drawn_collides :
    (s.drawn x y n).2 = true ↔ ∃ j ∈ s.coveredPixels x y n, Display.pixel s.disp j = true := by
  rw [State.drawn_eq, drawPixels_collides (s.coveredPixels_nodup x y n)]
  simp

end

theorem collisionFlag_eq_one_iff (c : Bool) : collisionFlag c = 1 ↔ c = true := by
  cases c <;> decide

/-- Settles O21: the display is blank, whose pixels are all 0. -/
theorem clearDisplay : Obligations.ClearDisplay :=
  fun s => ⟨(s.setDisplay .blank).advance, rfl, fun _ _ _ _ => Display.pixel_blank _, rfl⟩

/-- Settles O22: the covered pixels are drawn once each. -/
theorem drawFlipsCoveredPixels : Obligations.DrawFlipsCoveredPixels := by
  intro x y n s hle
  refine ⟨_, exec_drw_of_le x y hle, fun px hpx py hpy => ?pixels, fun hhit => ?hit, fun hmiss => ?miss, rfl⟩
  case pixels =>
    simp only [State.pixelAt, State.advance_disp, State.setReg_disp, State.setDisplay_disp, State.pixel_drawn,
      ← State.mem_coveredPixels hpx py]
    exact ⟨fun hcover => by simp [hcover], fun hclear => by simp [hclear]⟩
  case hit =>
    have hc : (s.drawn x y n).2 = true := State.drawn_collides.2 ((State.exists_coveredPixels _).2 hhit)
    simp [hc, collisionFlag, flagByte]
  case miss =>
    have hc : ¬ (s.drawn x y n).2 = true := fun hc =>
      hmiss ((State.exists_coveredPixels _).1 (State.drawn_collides.1 hc))
    simp [hc, collisionFlag, flagByte]

/-! ## Drawing twice -/

section
variable {s t u : State} {x y x' y' : Reg} {n : Fin 16}

/-- A second sprite of the same bytes at the same coordinates covers the same pixels. -/
theorem State.coveredPixels_congr (hcfg : t.cfg = s.cfg) (hmem : t.mem = s.mem) (hidx : t.idx = s.idx)
    (hx : t.reg x' = s.reg x) (hy : t.reg y' = s.reg y) : t.coveredPixels x' y' n = s.coveredPixels x y n := by
  have hload : t.loadBytes t.base n.val = s.loadBytes s.base n.val := by
    simp [State.loadBytes, State.base, hidx, State.byteAt_congr hcfg hmem]
  rw [State.coveredPixels, State.coveredPixels, hx, hy, hload]

variable (hle : n.val = 0 ∨ s.idx.toNat + n.val ≤ 0x1000) (ht : exec (.drw x y n) s = .next t)
include hle ht

/-- The state that a first draw leaves. -/
theorem eq_of_exec_drw :
    t = ((s.setDisplay (s.drawn x y n).1).setReg Reg.vf (collisionFlag (s.drawn x y n).2)).advance :=
  Host.Outcome.next.inj (ht.symm.trans (exec_drw_of_le x y hle))

/-- VF after a draw reports a covered pixel that was set. -/
theorem vf_eq_one_iff_of_exec_drw :
    t.v[15] = 1 ↔ ∃ j ∈ s.coveredPixels x y n, Display.pixel s.disp j = true := by
  rw [← State.drawn_collides, ← collisionFlag_eq_one_iff, eq_of_exec_drw hle ht]
  simp

theorem pixel_of_exec_drw (j : Nat) :
    Display.pixel t.disp j = (Display.pixel s.disp j ^^ decide (j ∈ s.coveredPixels x y n)) := by
  rw [← State.pixel_drawn, eq_of_exec_drw hle ht]
  rfl

theorem idx_of_exec_drw : t.idx = s.idx := by rw [eq_of_exec_drw hle ht]; rfl

variable (hx : t.v[x'] = s.v[x]) (hy : t.v[y'] = s.v[y])
include hx hy

theorem coveredPixels_of_exec_drw : t.coveredPixels x' y' n = s.coveredPixels x y n := by
  have ht := eq_of_exec_drw hle ht
  exact State.coveredPixels_congr (by rw [ht]; rfl) (by rw [ht]; rfl) (by rw [ht]; rfl) hx hy

variable (hu : exec (.drw x' y' n) t = .next u)
include hu

/-- Each covered pixel is flipped twice, and every other one not at all. -/
theorem disp_of_exec_drw_twice : u.disp = s.disp := by
  have hle' : n.val = 0 ∨ t.idx.toNat + n.val ≤ 0x1000 := by rwa [idx_of_exec_drw hle ht]
  refine Display.ext_pixel fun j _ => ?_
  rw [pixel_of_exec_drw hle' hu, coveredPixels_of_exec_drw hle ht hx hy, pixel_of_exec_drw hle ht, Bool.xor_assoc,
    Bool.xor_self, Bool.xor_false]

/-- The second draw meets the covered pixels as the first left them: set where they were clear. -/
theorem vf_eq_one_iff_of_exec_drw_twice :
    u.v[15] = 1 ↔ ∃ j ∈ s.coveredPixels x y n, Display.pixel s.disp j = false := by
  have hle' : n.val = 0 ∨ t.idx.toNat + n.val ≤ 0x1000 := by rwa [idx_of_exec_drw hle ht]
  rw [vf_eq_one_iff_of_exec_drw hle' hu, coveredPixels_of_exec_drw hle ht hx hy]
  refine exists_congr fun j => and_congr_right fun hj => ?_
  simp [pixel_of_exec_drw hle ht, hj]

end

/-- Settles O23: the two lemmas on a second draw, by coordinates. -/
theorem drawTwiceRestoresDisplay : Obligations.DrawTwiceRestoresDisplay := by
  intro x y x' y' n s t u hle ht hx hy hu
  refine ⟨disp_of_exec_drw_twice hle ht hx hy hu, ?_⟩
  rw [vf_eq_one_iff_of_exec_drw_twice hle ht hx hy hu, State.exists_coveredPixels]
  rfl

/-- Some pixel is covered exactly when one of the sprite's bytes has a set bit. -/
theorem State.exists_mem_coveredPixels_iff (s : State) (x y : Reg) (n : Fin 16) : (∃ j, j ∈ s.coveredPixels x y n) ↔
    ∃ r < n.val, ∃ c < 8, (s.byteAt (s.idx.toNat + r)).getLsbD c = true := by
  simp only [State.coveredPixels, mem_spritePixels, State.length_loadBytes, State.getElem_loadBytes]
  constructor
  · rintro ⟨j, r, hr, c, hc, hbit, -⟩
    exact ⟨r, hr, 7 - c, by omega, hbit⟩
  · rintro ⟨r, hr, c, hc, hbit⟩
    refine ⟨_, r, hr, 7 - c, by omega, ?_, rfl⟩
    rwa [show 7 - (7 - c) = c by omega]

/-- Settles O60: a first draw without a collision found every covered pixel clear, so the second reports one as soon as
the sprite covers any. -/
theorem secondDrawReportsSetBitAfterCleanFirst : Obligations.SecondDrawReportsSetBitAfterCleanFirst := by
  intro x y x' y' n s t u hle ht hclean hx hy hu
  have hclear : ∀ j ∈ s.coveredPixels x y n, Display.pixel s.disp j = false := by
    have hno : ¬ t.v[15] = 1 := by rw [hclean]; decide
    rw [vf_eq_one_iff_of_exec_drw hle ht] at hno
    simpa using hno
  rw [vf_eq_one_iff_of_exec_drw_twice hle ht hx hy hu, ← State.exists_mem_coveredPixels_iff s x y n]
  exact ⟨fun ⟨j, hj, _⟩ => ⟨j, hj⟩, fun ⟨j, hj⟩ => ⟨j, hj, hclear j hj⟩⟩

end Sys2Proof.Machine
end

section
/-!
PROOFS. Whole results of single instructions (40_control_flow.md, 41_alu.md, 42_index_memory.md, 44_keys_timers.md):
what each leaves, as an update of the state before.
-/

namespace Sys2Proof.Machine

/-! ## Arithmetic and shifts -/

/-- A result, a flag and the advance, as an update of two fields (10_state.md R103). -/
theorem State.advance_setResultFlag (x : Reg) (r g : Byte) (s : State) : (s.setResultFlag x r g).advance =
    { s with v := Spec.resultAndFlag s.cfg.vfOrder s.v x r g, pc := s.pc + 2 } := by
  unfold State.setResultFlag Spec.resultAndFlag
  cases s.cfg.vfOrder <;> rfl

/-- Settles O3: the three are one result and one flag of the pre-state operands; `trunc8` is the residue modulo 256. -/
theorem addAndSubtractWithFlag : Obligations.AddAndSubtractWithFlag := by
  intro x y s
  simp only [ofNat_mod_eq_trunc8]
  refine ⟨?_, ?_, ?_⟩
  · rw [exec_addReg, execAddReg, State.advance_setResultFlag]; rfl
  · rw [exec_sub, execSub, State.advance_setResultFlag]; rfl
  · rw [exec_subn, execSubn, State.advance_setResultFlag]; rfl

theorem ushiftRight_one_eq (b : Byte) : b >>> 1 = BitVec.ofNat 8 (b.toNat / 2) := by
  apply BitVec.eq_of_toNat_eq
  have := b.isLt
  simp [Nat.shiftRight_eq_div_pow]
  omega

theorem shiftLeft_one_eq (b : Byte) : b <<< 1 = BitVec.ofNat 8 (b.toNat * 2 % 256) := by
  apply BitVec.eq_of_toNat_eq
  simp [Nat.shiftLeft_eq]

theorem shiftedOutRight_eq (b : Byte) : shiftedOutRight b = BitVec.ofNat 8 (b.toNat % 2) := by
  revert b; decide

theorem shiftedOutLeft_eq (b : Byte) : shiftedOutLeft b = BitVec.ofNat 8 (b.toNat / 128) := by
  revert b; decide

/-- Settles O4: Y does not occur, and the shifts and the bits they lose are quotients and remainders. -/
theorem shiftsPutTheLostBitInFlag : Obligations.ShiftsPutTheLostBitInFlag := by
  intro x y s
  refine ⟨?_, ?_⟩
  · rw [exec_shr, execShr, State.advance_setResultFlag, ushiftRight_one_eq, shiftedOutRight_eq, State.reg]
  · rw [exec_shl, execShl, State.advance_setResultFlag, shiftLeft_one_eq, shiftedOutLeft_eq, State.reg]

/-- Settles O5: the draw, the write, the count and the advance are the instruction's own updates. -/
theorem randomByteIsMasked : Obligations.RandomByteIsMasked := by
  intro x nn s
  rw [exec_rnd, execRnd, State.rand]
  rfl

/-! ## Control transfer -/

/-- Settles O7: each skip is one `skipIf`, on the equality or on its negation. -/
theorem skipOnRegisters : Obligations.SkipOnRegisters := by
  intro x y s
  refine ⟨?_, ?_⟩
  · rw [exec_seReg, execSeReg, State.skipIf, State.reg, State.reg]
  · rw [exec_sneReg, execSneReg, State.skipIf_not, State.reg, State.reg]

theorem zextImm_eq_iff (nnn : Imm12) (w : Word) : zextImm nnn = w ↔ nnn.toNat = w.toNat := by
  rw [← BitVec.toNat_inj, toNat_zextImm]

/-- Settles O8: a target equals pc exactly as a number; BNNN's sum fits 16 bits. -/
theorem jumpsAndSelfJumpHalt : Obligations.JumpsAndSelfJumpHalt := by
  intro nnn s
  have hsum := toNat_zextImm_add_zextByte nnn (s.reg Reg.v0)
  refine ⟨?_, _, rfl, hsum, ?_, rfl⟩
  · by_cases heq : zextImm nnn = s.pc
    · rw [exec_jp_of_eq heq, if_pos ((zextImm_eq_iff nnn s.pc).1 heq)]; rfl
    · rw [exec_jp_of_ne heq, if_neg (mt (zextImm_eq_iff nnn s.pc).2 heq), zextImm_eq_ofNat_toNat]; rfl
  · have := nnn.isLt
    have := (s.reg Reg.v0).isLt
    refine hsum.trans_le ?_
    omega

/-- Settles O9: inside the bounds push and pop succeed. -/
theorem callAndReturn : Obligations.CallAndReturn :=
  ⟨fun nnn s h => ⟨_, exec_call_of_lt nnn h, rfl, rfl, by rw [zextImm_eq_ofNat_toNat]⟩,
    fun _ h => ⟨_, exec_ret_of_pos h, rfl, rfl, rfl⟩⟩

/-- Settles O10: outside the bounds push and pop fail, and the fault entry records the instruction's own word. -/
theorem stackFaults : Obligations.StackFaults := by
  refine ⟨fun nnn s h => ?_, fun s h => ?_⟩
  · rw [exec_call_of_full nnn h, zextImm_eq_ofNat_toNat]; rfl
  · rw [exec_ret_of_zero h]; rfl

/-- Settles O11: the return pops the slot that the call wrote, and no older one was written. -/
theorem returnComesBackAfterCall : Obligations.ReturnComesBackAfterCall := by
  intro nnn s t u v hlt ht hstack hsp hv
  rw [exec_call_of_lt nnn hlt] at ht
  cases ht
  have husp : u.sp.val = s.sp.val + 1 := by rw [hsp]
  rw [exec_ret_of_pos (by omega)] at hv
  cases hv
  refine ⟨?_, ?_, fun j hj => ?_⟩
  · simp [hstack, husp]
  · ext; simp [husp]
  · have : s.sp.val ≠ j.val := by omega
    simp [hstack, this]

/-! ## Index register -/

/-- `trunc16` reduces modulo 65536 by itself. -/
theorem ofNat_mod_eq_trunc16 (n : Nat) : BitVec.ofNat 16 (n % 65536) = trunc16 n :=
  BitVec.eq_of_toNat_eq (Nat.mod_mod n 65536)

/-- Settles O14: `trunc16` is the residue modulo 65536; V[X] × 5 fits I. -/
theorem indexArithmetic : Obligations.IndexArithmetic := by
  intro x s
  refine ⟨?_, _, rfl, ?_, rfl⟩
  · rw [exec_addIVx, execAddIVx, ofNat_mod_eq_trunc16]; rfl
  · exact (toNat_glyphAddress _).trans (Nat.mul_comm _ _)

/-! ## Keys and timers -/

theorem zextByte_eq_ofNat_toNat (b : Byte) : zextByte b = BitVec.ofNat 16 b.toNat :=
  (BitVec.ofNat_toNat 16 b).symm

/-- Settles O25: V[X] names a key below 16 and none from 16 on. -/
theorem skipOnKey : Obligations.SkipOnKey := by
  intro x s
  refine ⟨fun hlt => ?_, fun hge => ?_⟩
  · have hk : (s.reg x).toNat = (⟨_, hlt⟩ : Fin 16).val := rfl
    rw [exec_skp_of_eq hk, exec_sknp_of_eq hk, getElem_keys_toNat hk hlt, State.skipIf, State.skipIf]
    refine ⟨rfl, ?_⟩
    cases s.keyPressed ⟨_, hlt⟩ <;> rfl
  · rw [append_nib_append, append_nib_append, ← zextByte_eq_ofNat_toNat]
    exact ⟨exec_skp_of_ge hge, exec_sknp_of_ge hge⟩

/-- The lowest key is the pressed one below which none is. -/
theorem lowestKey_eq_some {s : State} {k : Fin 16} (hk : s.keyPressed k = true)
    (hlow : ∀ j : Fin 16, j < k → s.keyPressed j = false) : s.lowestKey = some k := by
  refine List.find?_eq_some_iff_getElem.2 ⟨hk, k.val, by simp, by simp, fun j hj => ?_⟩
  have := hlow ⟨j, by omega⟩ hj
  simpa using this

/-- Settles O26: the key found is the lowest. -/
theorem keyWaitTakesLowestKey : Obligations.KeyWaitTakesLowestKey :=
  fun _ _ _ hk hlow => exec_ldVxK_of_key (lowestKey_eq_some hk hlow)

/-- Settles O28: each instruction is one write and the advance. -/
theorem timerInstructions : Obligations.TimerInstructions := by
  intro x s
  refine ⟨?_, ?_, ?_⟩
  · rw [exec_ldVxDt, execLdVxDt, State.advance_setReg]
  · rw [exec_ldDtVx, execLdDtVx, State.reg]; rfl
  · rw [exec_ldStVx, execLdStVx, State.reg]; rfl

end Sys2Proof.Machine
end

section
/-!
PROOFS. The host's operations (60_exceptions.md sections 5 and 6, 70_reset_and_hazards.md section 3): runs of ticks, the
draw flag, the keys, the reads, and the block before its first `initialize`.
-/

namespace Sys2Proof.Machine

theorem applyOp_ready_of_next {s t : State} {op : HostOp} {out : OpOutput} (h : s.applyOp op = .next (t, out)) :
    applyOp (.ready s) op = .next (.ready t, out) := by
  simp [applyOp, h]

/-- One operation more at the head of an execution. -/
theorem runOps_cons_ready {s t : State} {op : HostOp} {out : OpOutput} {ops : List HostOp} {b : Block}
    {outs : List OpOutput} (h : s.applyOp op = .next (t, out)) (hrest : runOps ops (.ready t) = .next (b, outs)) :
    runOps (op :: ops) (.ready s) = .next (b, out :: outs) := by
  simp [runOps, applyOp_ready_of_next h, hrest]

/-- A tick beeps when ST was 1 (60_exceptions.md R924). -/
theorem timerDecrement_snd_eq (s : State) : s.timerDecrement.2 = decide (s.st.toNat = 0 + 1) := by
  rw [State.timerDecrement_beep, decide_eq_decide, ← BitVec.toNat_inj]
  rfl

/-- Settles O51: by induction on n; the first tick takes one from each timer and beeps when ST was 1, and the later
ones see timers one lower. -/
theorem manyTicksCountDown : Obligations.ManyTicksCountDown := by
  intro n
  induction n with
  | zero => intro s; simp [runOps]
  | succ n ih =>
    intro s
    have hrest := ih s.timerDecrement.1
    have hdt : s.timerDecrement.1.dt.toNat - n = s.dt.toNat - (n + 1) := by
      rw [State.timerDecrement_dt, toNat_decTimer]; omega
    have hst : s.timerDecrement.1.st.toNat - n = s.st.toNat - (n + 1) := by
      rw [State.timerDecrement_st, toNat_decTimer]; omega
    have hbeep (k : Nat) : s.timerDecrement.1.st.toNat = k + 1 ↔ s.st.toNat = k + 1 + 1 := by
      rw [State.timerDecrement_st, toNat_decTimer]; omega
    simp only [hdt, hst, hbeep] at hrest
    rw [List.replicate_succ, runOps_cons_ready s.applyOp_tickTimers hrest, timerDecrement_snd_eq,
      List.range_succ_eq_map, List.map_cons, List.map_map]
    rfl

/-- Settles O57: one consumption gives the flag and leaves it clear, so the next gives false. -/
theorem consumeDrawFlagClears : Obligations.ConsumeDrawFlagClears :=
  fun _ => ⟨rfl, runOps_cons_ready rfl (runOps_cons_ready rfl rfl)⟩

/-- Settles O58: the reads are the operations' own equations; entry j of the display read is pixel j. -/
theorem keysAreSetAndReadsAreFree : Obligations.KeysAreSetAndReadsAreFree := by
  intro s keys
  refine ⟨rfl, rfl, rfl, rfl, s.displayBytes, rfl, by simp [State.displayBytes], fun px hpx py hpy => ?_⟩
  have hlt : py * 64 + px < 2048 := by omega
  rw [State.displayBytes, List.getElem?_map, List.getElem?_range hlt]
  rfl

/-- Settles O59: an uninitialised block serves `initialize` alone. -/
theorem uninitialisedBlockRefuses : Obligations.UninitialisedBlockRefuses := by
  refine fun cfg op => ⟨fun hop => ?_, rfl⟩
  cases op with
  | initializeBlock => exact absurd rfl hop
  | _ => rfl

end Sys2Proof.Machine
end
